-- ==== Sys2Proof/Word.lean ====
section
/-! DEFINITION. The words on the ports of the core (30_encoding.md R38): `src`, `rng` and `dst` are `BUS = 32` bits wide
(00_scope.md R8, 92_eei_decisions.md D2), `cmd` is 16 bits wide (R37).  Bit 0 is the least significant bit (R11). -/

namespace Sys2Proof

/-- A value on the `src`, `rng` or `dst` port. -/
abbrev Word := BitVec 32

/-- A command word on the `cmd` port. -/
abbrev Cmd := BitVec 16

end Sys2Proof
end

