-- ==== Sys2Proof/Config.lean ====
section
/-! DEFINITION. The parameters of 00_scope.md R8 that no operand fixes: the admitted formats and the decoder's NaN patterns,
and the value of `clz32(0)` that no operation reads.  A parameter the spec leaves open is an opaque constant: nothing can
compute it, so a claim holds for every choice. -/

namespace Sys2Proof.Config

/-- `FORMATS`, the `(wm, we)` pairs the core admits: "The spec admits exactly those two" (00_scope.md R9, D4).
DESIGN CHOICE of the spec, log entry 5. -/
def formats : List (Nat × Nat) := [(3, 4), (2, 5)]

/-- The pairs for which both operations are well defined with both wide types: the table of 00_scope.md R9.  A model may
widen `formats` within this list only (93_implementation_defined.md U6). -/
def definedFormats : List (Nat × Nat) := [(6, 1), (5, 2), (4, 3), (3, 4), (2, 5)]

/-- Sign bit of `DEC_NAN_S`, open (43_decoder.md R92, U2).  Log entry 4. -/
opaque decNanSignS : Bool

/-- Mantissa of `DEC_NAN_S` less one: the mantissa is any of `1 .. 2^23 - 1` (R8, U2).  Log entry 4. -/
opaque decNanMantissaPredS : Fin 8388607

/-- Sign bit of `DEC_NAN_H`, open (R92, U2).  Log entry 4. -/
opaque decNanSignH : Bool

/-- Mantissa of `DEC_NAN_H` less one: the mantissa is any of `1 .. 2^10 - 1` (R8, U2).  Log entry 4. -/
opaque decNanMantissaPredH : Fin 1023

/-- What a total `clz32` answers at 0, where the spec gives no value (00_scope.md R13, U4).  Log entry 7. -/
opaque clz32OfZero : Nat

/-- The spec's default `DEC_NAN_S` (00_scope.md R8, D9): one of the patterns the opaque constants range over; only the tests
that reproduce the spec's vectors name it. -/
def defaultDecNanS : Nat := 0x7F800001

/-- The spec's default `DEC_NAN_H` (R8, D9); as `defaultDecNanS`. -/
def defaultDecNanH : Nat := 0x7C01

end Sys2Proof.Config
end

