-- ==== Sys2Proof/Syntax.lean ====
section
/-! DEFINITION. The six operations of 30_encoding.md R36 as an inductive, one constructor per row of opcode_table.json, and the
fields of the operation descriptor of R35. -/

namespace Sys2Proof

/-- The wide-type selector `T` of R35: `s` is binary32, `h` is binary16. -/
inductive WideType where
  | s
  | h
  deriving DecidableEq, Repr

/-- The rounding mode `RM` of R35, 40_formats.md R57: deterministic or stochastic. -/
inductive RoundMode where
  | rne
  | sr
  deriving DecidableEq, Repr

/-- The narrow-format part `(wm, we, nzn)` of the configuration record (00_scope.md R7, R8): mantissa width, exponent width,
`negative_zero_nan`.  The widths are the numbers in the fields `WM`, `WE` of the command word. -/
structure Format where
  wm : Nat
  we : Nat
  nzn : Bool
  deriving DecidableEq, Repr

/-- The operations of R36.  `clip` is an operand of the encoder only; the decoder reads neither `SR` nor `CLIP` (R37), so they
are no operands of it. -/
inductive Instr where
  /-- `ENC.S.RNE` (41_encoder.md R76) -/
  | encSRne (fmt : Format) (clip : Bool)
  /-- `ENC.S.SR` (R77) -/
  | encSSr (fmt : Format) (clip : Bool)
  /-- `ENC.H.RNE` (R78) -/
  | encHRne (fmt : Format) (clip : Bool)
  /-- `ENC.H.SR` (R79) -/
  | encHSr (fmt : Format) (clip : Bool)
  /-- `DEC.S` (43_decoder.md R98) -/
  | decS (fmt : Format)
  /-- `DEC.H` (R99) -/
  | decH (fmt : Format)
  deriving DecidableEq, Repr

/-- The encode operation with the descriptor fields `T`, `RM` (R35, R36). -/
def Instr.enc (T : WideType) (rm : RoundMode) (fmt : Format) (clip : Bool) : Instr :=
  match T, rm with
  | .s, .rne => .encSRne fmt clip
  | .s, .sr => .encSSr fmt clip
  | .h, .rne => .encHRne fmt clip
  | .h, .sr => .encHSr fmt clip

/-- The decode operation with the descriptor field `T` (R35, R36). -/
def Instr.dec (T : WideType) (fmt : Format) : Instr :=
  match T with
  | .s => .decS fmt
  | .h => .decH fmt

/-- The narrow format an operation names. -/
def Instr.format (i : Instr) : Format :=
  match i with
  | .encSRne fmt _ => fmt
  | .encSSr fmt _ => fmt
  | .encHRne fmt _ => fmt
  | .encHSr fmt _ => fmt
  | .decS fmt => fmt
  | .decH fmt => fmt

/-- Whether the mnemonic ends in `.SR`, so that the operation takes `rng` (R36, R43). -/
def Instr.takesRng (i : Instr) : Bool :=
  match i with
  | .encSRne _ _ => false
  | .encSSr _ _ => true
  | .encHRne _ _ => false
  | .encHSr _ _ => true
  | .decS _ => false
  | .decH _ => false

/-- The mnemonics of R36. -/
def Instr.mnemonic (i : Instr) : String :=
  match i with
  | .encSRne _ _ => "ENC.S.RNE"
  | .encSSr _ _ => "ENC.S.SR"
  | .encHRne _ _ => "ENC.H.RNE"
  | .encHSr _ _ => "ENC.H.SR"
  | .decS _ => "DEC.S"
  | .decH _ => "DEC.H"

/-- The formats of 40_formats.md R51 under this spec's short names (R44: `E4M3` is `WM = 3, WE = 4`, `E5M2` is
`WM = 2, WE = 5`; the suffix `.NZN` sets `nzn`). -/
def e4m3 : Format := { wm := 3, we := 4, nzn := false }

/-- `E4M3.NZN` (R51). -/
def e4m3Nzn : Format := { wm := 3, we := 4, nzn := true }

/-- `E5M2` (R51). -/
def e5m2 : Format := { wm := 2, we := 5, nzn := false }

/-- `E5M2.NZN` (R51). -/
def e5m2Nzn : Format := { wm := 2, we := 5, nzn := true }

end Sys2Proof
end

