-- ==== Sys2Proof/WellFormed.lean ====
section
/-! DEFINITION. Which operations are legal: the checks of 30_encoding.md R40 on an operation's operands.  The first check of R40
(reserved bits) is on the command word and stands in Decode. -/

namespace Sys2Proof

/-- The constraint `wm + we == 7` (R40 `WidthSum`, 40_formats.md R51). -/
def Format.widthSumOk (f : Format) : Bool := f.wm + f.we == 7

/-- `(WM, WE)` is in `FORMATS` (R40 `FormatNotAdmitted`, 00_scope.md R9). -/
def Format.admitted (f : Format) : Bool := Config.formats.contains (f.wm, f.we)

/-- A format an operation may name: both operand checks of R40. -/
def Format.wf (f : Format) : Bool := f.widthSumOk && f.admitted

/-- A format in the domain where the rules are well defined (00_scope.md R9), admitted or not. -/
def Format.defined (f : Format) : Bool := Config.definedFormats.contains (f.wm, f.we)

/-- An operation that can be written in a legal command word: "Every combination of `OP`, `T`, `SR`, `NZN`, `CLIP` is legal"
(R40), so the checks are those on the format. -/
def Instr.wf (i : Instr) : Bool := i.format.wf

end Sys2Proof
end

