-- ==== Sys2Proof/Decode.lean ====
section
/-! DEFINITION. The command word (30_encoding.md section 2): bit slices (00_scope.md R11), the decoder of R41 (total, every
rejection named by the check of R40 that fails), and the encoder written from the same layout (R37). -/

namespace Sys2Proof

/-- `v[hi:lo]` (00_scope.md R11): `(v >> lo) mod 2^(hi-lo+1)`. -/
def slice (v hi lo : Nat) : Nat := (v >>> lo) % 2 ^ (hi - lo + 1)

/-- `v[i]` (R11). -/
def bit (v i : Nat) : Nat := (v >>> i) % 2

/-- The reason names of R40, in the table's order. -/
inductive Illegal where
  | reservedBits
  | widthSum
  | formatNotAdmitted
  deriving DecidableEq, Repr

/-- The format fields of a command word: `WM` in bits 7:5, `WE` in bits 10:8, `NZN` in bit 3 (R37). -/
def cmdFormat (w : Cmd) : Format :=
  { wm := slice w.toNat 7 5, we := slice w.toNat 10 8, nzn := w.getLsbD 3 }

/-- The opcode match of R41 (`opcode_table.json`): `OP` bit 0, `T` bit 1, `SR` bit 2, `CLIP` bit 4, reserved bits 15:11 zero.
`DEC` ignores `SR` and `CLIP` (R37).  The operand checks of R40 come after it (`legality`), as R41 says: a word that matches a
row is still subject to them.  Log entry 8. -/
def decode (w : Cmd) : Except Illegal Instr :=
  if slice w.toNat 15 11 ≠ 0 then .error .reservedBits
  else
    match w.getLsbD 0, w.getLsbD 1, w.getLsbD 2 with
    | false, false, false => .ok (.encSRne (cmdFormat w) (w.getLsbD 4))
    | false, false, true => .ok (.encSSr (cmdFormat w) (w.getLsbD 4))
    | false, true, false => .ok (.encHRne (cmdFormat w) (w.getLsbD 4))
    | false, true, true => .ok (.encHSr (cmdFormat w) (w.getLsbD 4))
    | true, false, _ => .ok (.decS (cmdFormat w))
    | true, true, _ => .ok (.decH (cmdFormat w))

/-- The operand checks of R40 in the table's order (60_exceptions.md R105): the first that fails, if any. -/
def legality (f : Format) : Option Illegal :=
  if f.wm + f.we ≠ 7 then some .widthSum
  else if Config.formats.contains (f.wm, f.we) then none
  else some .formatNotAdmitted

/-- The decoder of R41 with all three checks of R40: one of the six operations, or the first failing check. -/
def decodeLegal (w : Cmd) : Except Illegal Instr :=
  match decode w with
  | .error r => .error r
  | .ok i =>
    match legality i.format with
    | some r => .error r
    | none => .ok i

/-- `OP | T<<1 | SR<<2 | NZN<<3 | CLIP<<4 | WM<<5 | WE<<8` (R37). -/
def packCmd (op t sr clip : Bool) (f : Format) : Cmd :=
  (BitVec.ofBool op).setWidth 16 ||| (BitVec.ofBool t).setWidth 16 <<< 1 ||| (BitVec.ofBool sr).setWidth 16 <<< 2
    ||| (BitVec.ofBool f.nzn).setWidth 16 <<< 3 ||| (BitVec.ofBool clip).setWidth 16 <<< 4
    ||| BitVec.ofNat 16 f.wm <<< 5 ||| BitVec.ofNat 16 f.we <<< 8

/-- The command word of an operation (R37, R41).  The bits `DEC` ignores are written 0 (log entry 9). -/
def encode (i : Instr) : Cmd :=
  match i with
  | .encSRne f clip => packCmd false false false clip f
  | .encSSr f clip => packCmd false false true clip f
  | .encHRne f clip => packCmd false true false clip f
  | .encHSr f clip => packCmd false true true clip f
  | .decS f => packCmd true false false false f
  | .decH f => packCmd true true false false f

/-- The `match` of an operation's row in the table of R41. -/
def Instr.rowMatch (i : Instr) : Cmd :=
  match i with
  | .encSRne _ _ => 0x0000#16
  | .encSSr _ _ => 0x0004#16
  | .encHRne _ _ => 0x0002#16
  | .encHSr _ _ => 0x0006#16
  | .decS _ => 0x0001#16
  | .decH _ => 0x0003#16

/-- The `mask` of an operation's row in the table of R41. -/
def Instr.rowMask (i : Instr) : Cmd :=
  match i with
  | .encSRne _ _ => 0xF807#16
  | .encSSr _ _ => 0xF807#16
  | .encHRne _ _ => 0xF807#16
  | .encHSr _ _ => 0xF807#16
  | .decS _ => 0xF803#16
  | .decH _ => 0xF803#16

/-- A word numbered as opcode_table.json numbers it, on the `cmd` port: there is one command-word length (R41), so the bits
above `nbits` are 0 and the word is its low 16 bits (log entry 16). -/
def tableWord (nbits w : Nat) : Cmd := BitVec.ofNat 16 (w % 2 ^ nbits)

/-- The operation the decoder reads from a table word; `none` where it rejects the word. -/
def decodeTableWord (nbits w : Nat) : Option Instr :=
  match decode (tableWord nbits w) with
  | .ok i => some i
  | .error _ => none

end Sys2Proof
end

