-- ==== Sys2Proof/Machine/State.lean ====
section
/-! DEFINITION. The machine's state.  The core itself has none (10_state.md R20 to R27); what stands here are the four ports of
30_encoding.md R38, which a step reads and drives (log entry 1). -/

namespace Sys2Proof.Machine

/-- The values on the ports (30_encoding.md R38).  The host drives the first three; a step drives `dst`. -/
structure State where
  /-- in: the command word (R37) -/
  cmd : Cmd
  /-- in: a binary32 pattern, a binary16 pattern in bits 15:0, or a narrow value in bits 7:0 -/
  src : Word
  /-- in: the caller's random bits (70_reset_and_hazards.md R115) -/
  rng : Word
  /-- out: a narrow value in bits 7:0, a binary16 pattern in bits 15:0, or a binary32 pattern -/
  dst : Word
  deriving DecidableEq, Repr

/-- What the ports carry before the host has driven them.  The spec gives no values: "Because there is no state, there is
nothing for reset to set" (R27).  DESIGN CHOICE: zero, log entry 2 (unsafe); no operation reads `dst` and no statement rests
on these values. -/
def State.reset : State := { cmd := 0#16, src := 0#32, rng := 0#32, dst := 0#32 }

/-- The exceptions of the core: "The table of exception causes is therefore empty" (60_exceptions.md R102), so this type has
no value.  Safe: log entry 10. -/
inductive Fault where
  deriving DecidableEq, Repr

/-- Why a step gives an operation no meaning (60_exceptions.md R104). -/
inductive Refusal where
  /-- Raised by `step` when `cmd[15:11]` is not 0 (30_encoding.md R40 `ReservedBits`).  Safe: the spec gives no result. -/
  | reservedBits
  /-- Raised by every meaning when `WM + WE` is not 7 (R40 `WidthSum`).  Safe: the spec gives no result. -/
  | widthSum
  /-- Raised by every meaning when `(WM, WE)` is not in `FORMATS` (R40 `FormatNotAdmitted`).  Safe: log entry 5. -/
  | formatNotAdmitted
  /-- Raised by an arm of `exec` that has no meaning yet; no arm is left so.  Safe. -/
  | notModelled (mnemonic : String)
  deriving DecidableEq, Repr

end Sys2Proof.Machine
end

