-- ==== Sys2Proof/Machine/Ops.lean ====
section
/-! DEFINITION. The named operations on the ports, and refusal.  There is no memory, no register and no exception to take
(20_memory.md R28, 10_state.md R20, 60_exceptions.md R102, R106): an operation reads `cmd`, `src`, `rng` and drives `dst`. -/

namespace Sys2Proof.Machine

/-- What one step of this machine answers. -/
abbrev Result := Host.Outcome State Fault Refusal

/-- The core drives its one output (30_encoding.md R38). -/
def State.setDst (s : State) (v : Word) : State := { s with dst := v }

/-- The host presents an operation: it drives the three input ports (R38; 10_state.md R21).  What `dst` shows before the
operation is evaluated is not said (70_reset_and_hazards.md R118); it is left as it is. -/
def State.present (s : State) (cmd : Cmd) (src rng : Word) : State :=
  { s with cmd := cmd, src := src, rng := rng }

/-- The refusal that reports a failed check of 30_encoding.md R40 (60_exceptions.md R104). -/
def refusalOf (r : Illegal) : Refusal :=
  match r with
  | .reservedBits => .reservedBits
  | .widthSum => .widthSum
  | .formatNotAdmitted => .formatNotAdmitted

/-- An operation with format `f` produces `v` on `dst`, or is refused and has no result: "Legality of `cmd` is decided before
anything else" (60_exceptions.md R105). -/
def produce (f : Format) (v : Word) (s : State) : Result :=
  match legality f with
  | some r => .refused (refusalOf r)
  | none => .next (s.setDst v)

end Sys2Proof.Machine
end

