-- ==== Sys2Proof/Machine/Operands.lean ====
section
/-! DEFINITION. The numbers of the wide types and of the narrow formats (40_formats.md R47, R48, R50 to R56; 41_encoder.md R62,
R63), and operand assembly (30_encoding.md R39). -/

namespace Sys2Proof

/-- `W`: 32 for `S`, 16 for `H` (41_encoder.md R61). -/
def WideType.width (T : WideType) : Nat :=
  match T with
  | .s => 32
  | .h => 16

/-- `mfmt`, called `wmo` in the decoder: the wide mantissa width (40_formats.md R47, R48). -/
def WideType.mfmt (T : WideType) : Nat :=
  match T with
  | .s => 23
  | .h => 10

/-- `weo`: the wide exponent width (R47, R48). -/
def WideType.weo (T : WideType) : Nat :=
  match T with
  | .s => 8
  | .h => 5

/-- `wbias`: the wide exponent bias (R47, R48). -/
def WideType.wbias (T : WideType) : Nat :=
  match T with
  | .s => 127
  | .h => 15

/-- `f8_bias = 2^(we-1) - 1 + nzn` (R52). -/
def Format.bias (f : Format) : Nat := 2 ^ (f.we - 1) - 1 + f.nzn.toNat

/-- `f8_den = 1 - f8_bias`, the true exponent of a narrow denormal (R52). -/
def Format.den (f : Format) : Int := 1 - (f.bias : Int)

/-- `max_exp`: `2^we - 1` when `nzn`, else `2^we - 2` (41_encoder.md R73). -/
def Format.maxExp (f : Format) : Nat := 2 ^ f.we - (if f.nzn then 1 else 2)

/-- `cmax`, the largest finite positive pattern (R80; 40_formats.md R56). -/
def Format.cmax (f : Format) : Nat := f.maxExp <<< f.wm ||| (2 ^ f.wm - 1)

/-- `signed_inf = (sign << 7) + ((2^we - 1) << wm)` (41_encoder.md R63), whatever `nzn` is. -/
def Format.signedInf (f : Format) (sign : Nat) : Nat := (sign <<< 7) + ((2 ^ f.we - 1) <<< f.wm)

/-- `drop = mfmt - wm` (42_rounding.md R81). -/
def dropWidth (T : WideType) (f : Format) : Nat := T.mfmt - f.wm

/-- `DEC_NAN_T` (43_decoder.md R92): all-ones exponent, nonzero mantissa, otherwise open (00_scope.md R8, U2).  Log entry 4. -/
def decNan (T : WideType) : Nat :=
  match T with
  | .s => (Config.decNanSignS.toNat <<< 31) ||| (255 <<< 23) ||| (Config.decNanMantissaPredS.val + 1)
  | .h => (Config.decNanSignH.toNat <<< 15) ||| (31 <<< 10) ||| (Config.decNanMantissaPredH.val + 1)

namespace Machine

/-- The encoder's source value (30_encoding.md R39): `src[31:0]` for `S`, `src[15:0]` for `H`. -/
def wideOperand (T : WideType) (src : Word) : Nat := slice src.toNat (T.width - 1) 0

/-- The decoder's source value (R39): `src[7:0]`. -/
def narrowOperand (src : Word) : Nat := slice src.toNat 7 0

/-- An 8-bit result on `dst`: `zext_32(y)` (R39). -/
def narrowResult (y : Nat) : Word := (BitVec.ofNat 8 y).setWidth 32

/-- A wide result on `dst` (R39): the 32-bit pattern, or `zext_32` of the 16-bit pattern. -/
def wideResult (T : WideType) (w : Nat) : Word := (BitVec.ofNat T.width w).setWidth 32

end Machine

end Sys2Proof
end

