-- ==== Sys2Proof/Machine/Decoder.lean ====
section
/-! DEFINITION. The decoder, narrow float to wide float (43_decoder.md), step by step in the order of R89. -/

namespace Sys2Proof.Machine

/-- The number of leading zero bits of a 32-bit value (00_scope.md R13): `31 - floor(log2(v))` for `v` not 0.  At 0 the spec
gives no value and no operation asks for one (U4, log entry 7). -/
def clz32 (v : Nat) : Nat := if v = 0 then Config.clz32OfZero else 31 - Nat.log2 v

/-- The three fields of a narrow pattern (43_decoder.md R91). -/
structure NarrowFields where
  sign : Nat
  exponent : Nat
  mantissa : Nat
  deriving DecidableEq, Repr

/-- Step 4's extraction (R91; 40_formats.md R50). -/
def narrowFields (f : Format) (y : Nat) : NarrowFields :=
  { sign := bit y 7
    exponent := slice y 6 f.wm
    mantissa := slice y (f.wm - 1) 0 }

/-- The wide infinity with a sign (R92). -/
def wideInf (T : WideType) (sign : Nat) : Nat := (sign <<< (T.width - 1)) ||| ((2 ^ T.weo - 1) <<< T.mfmt)

/-- Steps 1 and 2 (R90, R92): the patterns that leave early, `nan` being the wide NaN to produce. -/
def decodeSpecial (nan : Nat) (T : WideType) (f : Format) (y : Nat) : Option Nat :=
  if y = 0x00 then some 0
  else if f.nzn then (if y = 0x80 then some nan else none)
  else if y = 0x80 then some (2 ^ (T.width - 1))
  else if (narrowFields f y).exponent = 2 ^ f.we - 1 then
    (if (narrowFields f y).mantissa = 0 then some (wideInf T (narrowFields f y).sign) else some nan)
  else none

/-- Whether step 3's fast path applies (R93). -/
def takesFastPath (T : WideType) (f : Format) : Bool := f.we == 5 && T == .h && !f.nzn

/-- Step 3 (R93): `y << 8`, the mantissa-width difference of the one format it serves. -/
def fastPath (y : Nat) : Nat := y <<< 8

/-- An exponent that may be negative, and a mantissa (R94, R95). -/
structure Normalized where
  exponent : Int
  mantissa : Nat
  deriving DecidableEq, Repr

/-- The normalization shift `sh` (R94); an integer, since the expression subtracts. -/
def normShift (f : Format) (mantissa : Nat) : Nat := (1 + (clz32 mantissa : Int) - (32 - (f.wm : Int))).toNat

/-- Step 4 (R94): a narrow denormal is shifted left until its leading 1 is implicit. -/
def normalizeNarrow (f : Format) (n : NarrowFields) : Normalized :=
  if n.exponent = 0 then
    { exponent := (n.exponent : Int) + 1 - normShift f n.mantissa
      mantissa := (n.mantissa <<< normShift f n.mantissa) &&& (2 ^ f.wm - 1) }
  else { exponent := n.exponent, mantissa := n.mantissa }

/-- Step 5 (R95): the amount added is `wbias - f8_bias` (conflict C1). -/
def rebias (T : WideType) (f : Format) (n : Normalized) : Normalized :=
  { exponent := n.exponent + ((T.wbias : Int) - f.bias)
    mantissa := n.mantissa <<< (T.mfmt - f.wm) }

/-- Step 6 (R96): a result below the smallest wide normal; the deficit is `1 - exponent`. -/
def denormalize (T : WideType) (n : Normalized) : Normalized :=
  if n.exponent ≤ 0 then
    { exponent := 0, mantissa := (n.mantissa ||| 2 ^ T.mfmt) >>> (1 - n.exponent).toNat }
  else n

/-- Step 7 (R97). -/
def packWide (T : WideType) (sign : Nat) (n : Normalized) : Nat :=
  (sign <<< (T.width - 1)) ||| (n.exponent.toNat <<< T.mfmt) ||| n.mantissa

/-- Steps 4 to 7: the general path (R94 to R97). -/
def decodeGeneral (T : WideType) (f : Format) (y : Nat) : Nat :=
  packWide T (narrowFields f y).sign (denormalize T (rebias T f (normalizeNarrow f (narrowFields f y))))

/-- The decoder with a given wide NaN (R89): zero, special patterns, fast path, general path (60_exceptions.md R105). -/
def decWith (nan : Nat) (T : WideType) (f : Format) (y : Nat) : Nat :=
  match decodeSpecial nan T f y with
  | some w => w
  | none => if takesFastPath T f then fastPath y else decodeGeneral T f y

/-- The decoder (R89), with `DEC_NAN_T` for the NaN (R92). -/
def dec (T : WideType) (f : Format) (y : Nat) : Nat := decWith (decNan T) T f y

end Sys2Proof.Machine
end

