-- ==== Sys2Proof/Machine/DecodeOps.lean ====
section
/-! DEFINITION. The meanings of the two decode operations (43_decoder.md R98, R99).  Each writes `dst` and nothing else; each is
refused only by 30_encoding.md R40; `SR`, `CLIP` and `rng` are not read. -/

namespace Sys2Proof.Machine

/-- `DEC.S` (R98): `dst = dec(S, wm, we, nzn, src[7:0])`. -/
def execDecS (f : Format) (s : State) : Result :=
  produce f (wideResult .s (dec .s f (narrowOperand s.src))) s

/-- `DEC.H` (R99): `dst = zext_32(dec(H, wm, we, nzn, src[7:0]))`. -/
def execDecH (f : Format) (s : State) : Result :=
  produce f (wideResult .h (dec .h f (narrowOperand s.src))) s

end Sys2Proof.Machine
end

