-- ==== Sys2Proof/Machine/Rounding.lean ====
section
/-! DEFINITION. The rounding unit (42_rounding.md): midpoint detection, the addend, the carry.  Integers are unbounded
(00_scope.md R12, D6). -/

namespace Sys2Proof.Machine

/-- The inputs of the unit (42_rounding.md R81). -/
structure RoundIn where
  mfmt : Nat
  wm : Nat
  mantPre : Nat
  ediff : Int
  mant : Nat
  f8Exp : Int
  rm : RoundMode
  rng : Nat
  deriving DecidableEq, Repr

/-- The outputs of the unit (R81). -/
structure RoundOut where
  mant : Nat
  f8Exp : Int
  deriving DecidableEq, Repr

/-- `drop = mfmt - wm` (R81). -/
def RoundIn.drop (u : RoundIn) : Nat := u.mfmt - u.wm

/-- `D = drop + ediff`, the number of bits of `mant_pre` that will be discarded in all (R82). -/
def RoundIn.discarded (u : RoundIn) : Nat := ((u.drop : Int) + u.ediff).toNat

/-- Step 5 (R82), on the pre-shift mantissa (41_encoder.md R68): the discarded bits are a 1 followed by zeros. -/
def RoundIn.midpoint (u : RoundIn) : Bool := u.mantPre % 2 ^ u.discarded == 2 ^ (u.discarded - 1)

/-- The lowest bit that will be retained (R83). -/
def RoundIn.odd (u : RoundIn) : Bool := bit u.mant u.drop == 1

/-- Step 7 (R83).  The caller's low `drop` random bits when stochastic (D12); at a tie the field or the field of `mant - 1`,
as the retained bit is odd or even; otherwise the discarded field itself (conflict C7). -/
def RoundIn.addend (u : RoundIn) : Nat :=
  match u.rm with
  | .sr => u.rng &&& (2 ^ u.drop - 1)
  | .rne =>
    if u.midpoint then (if u.odd then u.mant else u.mant - 1) &&& (2 ^ u.drop - 1)
    else u.mant &&& (2 ^ u.drop - 1)

/-- `mant + addend` (R83). -/
def RoundIn.sum (u : RoundIn) : Nat := u.mant + u.addend

/-- The retained part in units of one narrow ulp, before the carry is propagated (R86, R87). -/
def RoundIn.retained (u : RoundIn) : Nat := u.sum >>> u.drop

/-- Step 8 (R85): a denormal rounded up to the smallest normal, or a mantissa that overflowed into the next exponent. -/
def propagateCarry (mfmt mant : Nat) (f8Exp : Int) : RoundOut :=
  if f8Exp = 0 then
    if bit mant mfmt = 1 then { mant := mant, f8Exp := 1 } else { mant := mant, f8Exp := f8Exp }
  else
    if bit mant (mfmt + 1) = 1 then { mant := mant >>> 1, f8Exp := f8Exp + 1 } else { mant := mant, f8Exp := f8Exp }

/-- Steps 7 and 8 (41_encoder.md R71). -/
def RoundIn.out (u : RoundIn) : RoundOut := propagateCarry u.mfmt u.sum u.f8Exp

end Sys2Proof.Machine
end

