-- ==== Sys2Proof/Machine/Encoder.lean ====
section
/-! DEFINITION. The encoder, wide float to narrow float (41_encoder.md), step by step in the order of R61.  A wide value is its
bit pattern as an unsigned integer (00_scope.md R15). -/

namespace Sys2Proof.Machine

/-- The three fields of a wide pattern (41_encoder.md R62). -/
structure WideFields where
  sign : Nat
  exponent : Nat
  mantissa : Nat
  deriving DecidableEq, Repr

/-- Step 1 (R62). -/
def decompose (T : WideType) (x : Nat) : WideFields :=
  { sign := bit x (T.width - 1)
    exponent := slice x (T.width - 2) T.mfmt
    mantissa := slice x (T.mfmt - 1) 0 }

/-- Infinity or NaN: "exponent field all ones" (40_formats.md R49). -/
def isSpecial (T : WideType) (x : Nat) : Bool := (decompose T x).exponent == 2 ^ T.weo - 1

/-- Step 2 (R64): the result of a special value.  `RM`, `rng` and `clip` are not consulted. -/
def encodeSpecial (f : Format) (w : WideFields) : Nat :=
  if f.nzn then 0x80 else f.signedInf w.sign + (if w.mantissa ≠ 0 then 1 else 0)

/-- The exponent signals of step 4 and the mantissa before the shift (R67). -/
structure Scaled where
  act : Int
  ediff : Int
  mantPre : Nat
  deriving DecidableEq, Repr

/-- Step 4 (R66, R67): true exponent, distance to the narrow denormal threshold, explicit leading 1. -/
def scale (T : WideType) (f : Format) (w : WideFields) : Scaled :=
  if w.exponent = 0 then
    { act := 1 - (T.wbias : Int)
      ediff := f.den - (1 - (T.wbias : Int))
      mantPre := w.mantissa }
  else
    { act := (w.exponent : Int) - T.wbias
      ediff := if (w.exponent : Int) - T.wbias ≤ f.den then f.den - ((w.exponent : Int) - T.wbias) else 0
      mantPre := w.mantissa + 2 ^ T.mfmt }

/-- Step 6 (R69).  Bits shifted out are lost; `Nat` shifts by any count, which agrees with a shift clamped to 31. -/
def alignMant (mantPre : Nat) (ediff : Int) : Nat :=
  if 0 < ediff then mantPre >>> ediff.toNat
  else if ediff = -1 then mantPre <<< 1
  else mantPre

/-- The narrow exponent field before rounding (R70). -/
def tentativeExp (T : WideType) (f : Format) (sc : Scaled) (mant : Nat) : Int :=
  (sc.act + sc.ediff) + f.bias - (if bit mant T.mfmt = 1 then 0 else 1)

/-- Steps 1, 4 and 6 assembled: what the rounding unit is given (42_rounding.md R81). -/
def roundIn (T : WideType) (f : Format) (rm : RoundMode) (rng x : Nat) : RoundIn :=
  let sc := scale T f (decompose T x)
  let mant := alignMant sc.mantPre sc.ediff
  { mfmt := T.mfmt
    wm := f.wm
    mantPre := sc.mantPre
    ediff := sc.ediff
    mant := mant
    f8Exp := tentativeExp T f sc mant
    rm := rm
    rng := rng }

/-- Steps 10 and 11 (R74, R75): zero collapse, then pack; the mask removes the leading 1 of a normal result. -/
def packNarrow (f : Format) (sign : Nat) (f8Exp : Int) (mant : Nat) : Nat :=
  if f8Exp = 0 ∧ mant = 0 then (if f.nzn then 0x00 else sign <<< 7)
  else (sign <<< 7) ||| (f8Exp.toNat <<< f.wm) ||| (mant &&& (2 ^ f.wm - 1))

/-- Whether the exponent after rounding is beyond the largest finite one (R73). -/
def overflows (f : Format) (o : RoundOut) : Bool := decide ((f.maxExp : Int) < o.f8Exp)

/-- Steps 9 to 11 (R72 to R75): drop the low bits, range clamp by the `clip` policy, then `packNarrow`.  Without `clip` the
pattern `signed_inf` is emitted whatever `nzn` is (D11, log entry 6). -/
def finish (f : Format) (clip : Bool) (drop sign : Nat) (o : RoundOut) : Nat :=
  if overflows f o then
    if clip then packNarrow f sign f.maxExp (2 ^ f.wm - 1) else f.signedInf sign
  else packNarrow f sign o.f8Exp (o.mant >>> drop)

/-- The encoder (R61): special values, then zero, then the general path (60_exceptions.md R105). -/
def enc (T : WideType) (f : Format) (clip : Bool) (rm : RoundMode) (rng x : Nat) : Nat :=
  if isSpecial T x then encodeSpecial f (decompose T x)
  else if x = 0 then 0x00
  else finish f clip (dropWidth T f) (decompose T x).sign (roundIn T f rm rng x).out

end Sys2Proof.Machine
end

