-- ==== Sys2Proof/Machine/EncodeOps.lean ====
section
/-! DEFINITION. The meanings of the four encode operations (41_encoder.md R76 to R79).  Each writes `dst` and nothing else; each
is refused only by 30_encoding.md R40; none writes a flag or raises an exception. -/

namespace Sys2Proof.Machine

/-- `ENC.S.RNE` (R76): `dst = zext_32(enc(S, wm, we, nzn, clip, RNE, 0, src[31:0]))`. -/
def execEncSRne (f : Format) (clip : Bool) (s : State) : Result :=
  produce f (narrowResult (enc .s f clip .rne 0 (wideOperand .s s.src))) s

/-- `ENC.S.SR` (R77): `dst = zext_32(enc(S, wm, we, nzn, clip, SR, rng, src[31:0]))`. -/
def execEncSSr (f : Format) (clip : Bool) (s : State) : Result :=
  produce f (narrowResult (enc .s f clip .sr s.rng.toNat (wideOperand .s s.src))) s

/-- `ENC.H.RNE` (R78): `dst = zext_32(enc(H, wm, we, nzn, clip, RNE, 0, src[15:0]))`. -/
def execEncHRne (f : Format) (clip : Bool) (s : State) : Result :=
  produce f (narrowResult (enc .h f clip .rne 0 (wideOperand .h s.src))) s

/-- `ENC.H.SR` (R79): `dst = zext_32(enc(H, wm, we, nzn, clip, SR, rng, src[15:0]))`. -/
def execEncHSr (f : Format) (clip : Bool) (s : State) : Result :=
  produce f (narrowResult (enc .h f clip .sr s.rng.toNat (wideOperand .h s.src))) s

end Sys2Proof.Machine
end

