-- ==== Sys2Proof/Machine/Dispatch.lean ====
section
/-! DEFINITION. One arm per operation of 30_encoding.md R36. -/

namespace Sys2Proof.Machine

def exec (i : Instr) (s : State) : Host.Outcome State Fault Refusal :=
  match i with
  | .encSRne fmt clip => Sys2Proof.Machine.execEncSRne fmt clip s
  | .encSSr fmt clip => Sys2Proof.Machine.execEncSSr fmt clip s
  | .encHRne fmt clip => Sys2Proof.Machine.execEncHRne fmt clip s
  | .encHSr fmt clip => Sys2Proof.Machine.execEncHSr fmt clip s
  | .decS fmt => Sys2Proof.Machine.execDecS fmt s
  | .decH fmt => Sys2Proof.Machine.execDecH fmt s

end Sys2Proof.Machine
end

