-- ==== Sys2Proof/Machine/Step.lean ====
section
/-! DEFINITION. One step: the core evaluates the operation its ports present (10_state.md R20, R21).  There is no fetch and no
program counter; the command word is an operand (20_memory.md R34). -/

namespace Sys2Proof.Machine

/-- Decode the command word, then evaluate the operation on the ports.  A word with reserved bits is refused here; the operand
checks of 30_encoding.md R40 refuse in the meanings (`produce`). -/
def step (s : State) : Host.Outcome State Fault Refusal :=
  match decode s.cmd with
  | .error r => .refused (refusalOf r)
  | .ok i => exec i s

/-- The host drives `cmd` with an opcode-table word; the other ports stay as they are (log entry 3). -/
def State.withFetchWord (s : State) (nbits w : Nat) : State := { s with cmd := tableWord nbits w }

end Sys2Proof.Machine
end

