-- ==== Sys2Proof/Machine/Flags.lean ====
section
/-! DEFINITION. Flags: there are none (10_state.md R22, 40_formats.md R60, D7), so no operation computes one.  What stands here
are the conditions "that IEEE 754 calls exceptions", which the core absorbs into results (60_exceptions.md R102), as predicates
on the operands of an encode operation; claims use them, nothing stores them. -/

namespace Sys2Proof.Machine

/-- The rows of the table of 60_exceptions.md R102. -/
inductive Condition where
  | invalid
  | overflow
  | underflow
  | inexact
  | divisionByZero
  deriving DecidableEq, Repr

/-- When an encode operation meets a condition of R102: a NaN input; a finite input beyond the largest finite value after
rounding; a result in the narrow denormal range or zero; a discarded 1 bit; never a division. -/
def conditionMet (c : Condition) (T : WideType) (f : Format) (rm : RoundMode) (rng x : Nat) : Bool :=
  match c with
  | .invalid => isSpecial T x && (decompose T x).mantissa != 0
  | .overflow => !isSpecial T x && x != 0 && overflows f (roundIn T f rm rng x).out
  | .underflow => !isSpecial T x && x != 0 && (roundIn T f rm rng x).out.f8Exp == 0
  | .inexact =>
    !isSpecial T x && x != 0 &&
      (roundIn T f rm rng x).mantPre % 2 ^ (roundIn T f rm rng x).discarded != 0
  | .divisionByZero => false

end Sys2Proof.Machine
end

