-- ==== Sys2Proof/Machine/Run.lean ====
section
/-! DEFINITION. The function `F(cmd, src, rng)` of 30_encoding.md R36, and the host's side: a run is a finite list of operations
the host presents (70_reset_and_hazards.md R118), and a program binds results to names of the host's (30_encoding.md R43, R44).
The core does not know it is a list (10_state.md R21): everything here stands outside `step`. -/

namespace Sys2Proof

/-- The value an operation's rule gives for its value operands (30_encoding.md R36, last column). -/
def Instr.value (i : Instr) (src rng : Word) : Word :=
  match i with
  | .encSRne f clip => Machine.narrowResult (Machine.enc .s f clip .rne 0 (Machine.wideOperand .s src))
  | .encSSr f clip => Machine.narrowResult (Machine.enc .s f clip .sr rng.toNat (Machine.wideOperand .s src))
  | .encHRne f clip => Machine.narrowResult (Machine.enc .h f clip .rne 0 (Machine.wideOperand .h src))
  | .encHSr f clip => Machine.narrowResult (Machine.enc .h f clip .sr rng.toNat (Machine.wideOperand .h src))
  | .decS f => Machine.wideResult .s (Machine.dec .s f (Machine.narrowOperand src))
  | .decH f => Machine.wideResult .h (Machine.dec .h f (Machine.narrowOperand src))

namespace Machine

/-- `F(cmd, src, rng)` (R36): the result of an admitted operation, or the failing check of R40. -/
def coreFunction (cmd : Cmd) (src rng : Word) : Except Illegal Word :=
  match decodeLegal cmd with
  | .error r => .error r
  | .ok i => .ok (i.value src rng)

/-- One operation as the host presents it on the input ports (R38). -/
structure Presentation where
  cmd : Cmd
  src : Word
  rng : Word
  deriving DecidableEq, Repr

/-- The host drives the ports with a presented operation. -/
def Presentation.drive (p : Presentation) (s : State) : State := s.present p.cmd p.src p.rng

/-- A run (R118): the host presents each operation and reads `dst`; the outcome is the list of results, and a refused operation
marks the whole run refused (60_exceptions.md R104). -/
def walk (s : State) (ps : List Presentation) : Host.Outcome (List Word) Fault Refusal :=
  match ps with
  | [] => .next []
  | p :: rest =>
    match step (p.drive s) with
    | .fault r => .fault r
    | .refused r => .refused r
    | .next t =>
      match walk t rest with
      | .fault r => .fault r
      | .refused r => .refused r
      | .next ds => .next (t.dst :: ds)

/-- A source of a host line (R43): a numeral, or a name bound by an earlier line.  Names are numbers here (log entry 15). -/
inductive Source where
  | lit (w : Word)
  | name (n : Nat)
  deriving DecidableEq, Repr

/-- A line `[name =] MNEMONIC fmt, src [, rng]` (R43), as data. -/
structure Line where
  name : Option Nat
  instr : Instr
  src : Source
  rng : Option Source
  deriving DecidableEq, Repr

/-- "`rng` is written exactly when the mnemonic ends in `.SR`" (R43); the operation is one of R40's legal ones. -/
def Line.wf (l : Line) : Bool := (l.rng.isSome == l.instr.takesRng) && l.instr.wf

/-- The value of a source, if it is a numeral or a bound name; the latest binding of a name counts. -/
def Source.value (bound : List (Nat × Word)) (x : Source) : Option Word :=
  match x with
  | .lit w => some w
  | .name n => bound.lookup n

/-- The operation a line presents: its command word (R37), its source value, its random operand.  A line with no `rng` drives
that port with 0, which no operation without `.SR` reads (R39). -/
def Line.presents (bound : List (Nat × Word)) (l : Line) : Option Presentation :=
  match l.src.value bound, (l.rng.getD (.lit 0#32)).value bound with
  | some src, some rng => some { cmd := encode l.instr, src := src, rng := rng }
  | _, _ => none

/-- The bindings after a line whose result is `d` (R43: "`name`, if present, is bound to `dst`"). -/
def Line.bind (bound : List (Nat × Word)) (l : Line) (d : Word) : List (Nat × Word) :=
  match l.name with
  | some n => (n, d) :: bound
  | none => bound

/-- The host walks a program (R43; 95_test_vectors.md section 4); its outcome is the list of bindings.  `none`: a line uses a
name no earlier line bound, so the lines are no program. -/
def walkLines (s : State) (bound : List (Nat × Word)) (ls : List Line) :
    Option (Host.Outcome (List (Nat × Word)) Fault Refusal) :=
  match ls with
  | [] => some (.next bound)
  | l :: rest =>
    match l.presents bound with
    | none => none
    | some p =>
      match step (p.drive s) with
      | .fault r => some (.fault r)
      | .refused r => some (.refused r)
      | .next t => walkLines t (l.bind bound t.dst) rest

/-- `QDQ.<T>.<RM> fmt, src [, rng]` (R44): `t = ENC.<T>.<RM> fmt, src [, rng]` then `DEC.<T> fmt, t`.  `t` is name 0, the result
is name 1. -/
def qdq (T : WideType) (rm : RoundMode) (f : Format) (clip : Bool) (src rng : Source) : List Line :=
  [{ name := some 0, instr := Instr.enc T rm f clip, src := src, rng := (match rm with | .rne => none | .sr => some rng) },
   { name := some 1, instr := Instr.dec T f, src := .name 0, rng := none }]

end Machine

end Sys2Proof
end

