-- ==== Sys2Proof/Machine/Values.lean ====
section
/-! DEFINITION. The number a pattern stands for, and the classes of narrow patterns (40_formats.md R47 to R56).  "Used by this
spec only to state properties; no operation computes with real numbers": no meaning calls anything of this file.

Every value of every format is an integer multiple of `2^-149`, the smallest binary32 denormal, so magnitudes are natural
numbers in that unit (log entry 12); `wideVal` and `narrowVal` are the spec's own formulas, and Laws/Values.lean proves that
the two agree. -/

namespace Sys2Proof.Machine

/-- `valH`, `valS` of a pattern that is not infinity or NaN (R47, R48). -/
def wideVal (T : WideType) (x : Nat) : ℚ :=
  (-1) ^ (decompose T x).sign *
    (if (decompose T x).exponent = 0 then ((decompose T x).mantissa : ℚ) * 2 ^ (1 - (T.wbias : ℤ) - T.mfmt)
     else ((2 ^ T.mfmt + (decompose T x).mantissa : ℕ) : ℚ) * 2 ^ (((decompose T x).exponent : ℤ) - T.wbias - T.mfmt))

/-- `valN` of a pattern that is not infinity or NaN (R55). -/
def narrowVal (f : Format) (y : Nat) : ℚ :=
  (-1) ^ (narrowFields f y).sign *
    (if (narrowFields f y).exponent = 0 then ((narrowFields f y).mantissa : ℚ) * 2 ^ (f.den - f.wm)
     else ((2 ^ f.wm + (narrowFields f y).mantissa : ℕ) : ℚ) * 2 ^ (((narrowFields f y).exponent : ℤ) - f.bias - f.wm))

/-- The magnitude of a finite wide pattern in units of `2^-149` (R47, R48). -/
def wideMag (T : WideType) (x : Nat) : Nat :=
  (if (decompose T x).exponent = 0 then (decompose T x).mantissa
   else (2 ^ T.mfmt + (decompose T x).mantissa) * 2 ^ ((decompose T x).exponent - 1)) * 2 ^ (150 - T.wbias - T.mfmt)

/-- The magnitude of a positive narrow pattern `c` in units of `2^-149` (R55).  The exponent field is not cut to `we` bits, so
that `cmax + 1` gets the magnitude `top` of 41_encoder.md R80, "the magnitude the next pattern would have if the exponent range
went one further". -/
def narrowMag (f : Format) (c : Nat) : Nat :=
  (if c >>> f.wm = 0 then c % 2 ^ f.wm else (2 ^ f.wm + c % 2 ^ f.wm) * 2 ^ (c >>> f.wm - 1)) * 2 ^ (150 - f.bias - f.wm)

/-- `top = 2^(max_exp + 1 - f8_bias)` (41_encoder.md R80), in units of `2^-149`. -/
def topMag (f : Format) : Nat := 2 ^ (150 + f.maxExp - f.bias)

/-- NaN patterns of a narrow format (R53, R54). -/
def isNarrowNaN (f : Format) (y : Nat) : Bool :=
  if f.nzn then y == 0x80
  else (narrowFields f y).exponent == 2 ^ f.we - 1 && (narrowFields f y).mantissa != 0

/-- Infinity patterns of a narrow format (R53, R54). -/
def isNarrowInf (f : Format) (y : Nat) : Bool :=
  !f.nzn && (narrowFields f y).exponent == 2 ^ f.we - 1 && (narrowFields f y).mantissa == 0

/-- A wide NaN: all-ones exponent, nonzero mantissa (R49). -/
def isWideNaN (T : WideType) (x : Nat) : Bool := isSpecial T x && (decompose T x).mantissa != 0

/-- A wide denormal: exponent field 0, mantissa field nonzero (R49). -/
def isWideDenormal (T : WideType) (x : Nat) : Bool :=
  (decompose T x).exponent == 0 && (decompose T x).mantissa != 0

/-- The distance of two magnitudes. -/
def distance (a b : Nat) : Nat := ((a : Int) - b).natAbs

/-- `c` is the element of `{0, ..., cmax + 1}` whose magnitude is nearest to `v`, the even one on an exact tie (R80). -/
def IsNearestEven (f : Format) (v c : Nat) : Prop :=
  c ≤ f.cmax + 1 ∧ ∀ d, d ≤ f.cmax + 1 →
    distance v (narrowMag f c) ≤ distance v (narrowMag f d) ∧
    (d ≠ c → distance v (narrowMag f d) = distance v (narrowMag f c) → c % 2 = 0)

/-- The result of an encode operation whose rounded magnitude is that of `c` (the case table of R80): the clip policy at
`cmax + 1`, the sign of zero, or the pattern. -/
def roundedPattern (f : Format) (clip : Bool) (sign c : Nat) : Nat :=
  if c = f.cmax + 1 then (if clip then (sign <<< 7) ||| f.cmax else f.signedInf sign)
  else if c = 0 then (if f.nzn then 0x00 else sign <<< 7)
  else (sign <<< 7) ||| c

/-- The fraction of the way from `c` to `c + 1`, in units of `2^-drop`, rounded down: the discarded field `f` of 42_rounding.md
R86, R87 in terms of values. -/
def fractionField (f : Format) (drop v c : Nat) : Nat :=
  2 ^ drop * (v - narrowMag f c) / (narrowMag f (c + 1) - narrowMag f c)

/-- `c` is the largest element of `{0, ..., cmax + 1}` of magnitude at most `v`: the lower of the two candidates that bracket
the input (40_formats.md R57). -/
def IsLowerCandidate (f : Format) (v c : Nat) : Prop :=
  c ≤ f.cmax + 1 ∧ narrowMag f c ≤ v ∧ (c ≤ f.cmax → v < narrowMag f (c + 1))

/-- The candidate a stochastic rounding takes from the lower one `c`, given the random bits (42_rounding.md R87). -/
def stochasticChoice (f : Format) (drop v rng c : Nat) : Nat :=
  if c ≤ f.cmax ∧ 2 ^ drop ≤ fractionField f drop v c + rng % 2 ^ drop then c + 1 else c

/-- The positive narrow pattern the clip policy leaves of the element `c` of `{0, ..., cmax + 1}` (the case table of R80): at
`cmax + 1` the largest finite one with `clip`, else the pattern `signed_inf`; every other `c` is itself. -/
def clippedElement (f : Format) (clip : Bool) (c : Nat) : Nat :=
  if c = f.cmax + 1 then (if clip then f.cmax else f.signedInf 0) else c

/-- `d` is the wide value of an input of sign `sign` that was rounded to the element `c` and clipped: the infinity of that sign
where `c` overflows and the format has one and `clip` is off, else the finite number with that sign (zero has none under `nzn`,
41_encoder.md R74) and the magnitude of the clipped element. -/
def IsDequantized (T : WideType) (f : Format) (clip : Bool) (sign c d : Nat) : Prop :=
  if c = f.cmax + 1 ∧ clip = false ∧ f.nzn = false then d = wideInf T sign
  else d < 2 ^ T.width ∧ isSpecial T d = false ∧
    (decompose T d).sign = (if c = 0 ∧ f.nzn = true then 0 else sign) ∧
    wideMag T d = narrowMag f (clippedElement f clip c)

end Sys2Proof.Machine
end

