-- ==== Sys2Proof/Safety.lean ====
section
/-! DEFINITION. What claims speak of: safe steps, the settled output, and which bits of the ports an operation reads. -/

namespace Sys2Proof.Machine

/-- A step that gives a result.  The duty of the integrating layer is to present legal configurations only
(70_reset_and_hazards.md R113); a step is safe exactly when it does. -/
def SafeStep (s : State) : Prop := ∃ t, step s = .next t

/-- The output is the function of the ports' present values (30_encoding.md R38, 70_reset_and_hazards.md R117): whenever the
command word is legal, `dst` is that operation's result. -/
def Settled (s : State) : Prop := ∀ v, coreFunction s.cmd s.src s.rng = .ok v → s.dst = v

/-- The bits of `src` an operation reads (30_encoding.md R39). -/
def srcReadMask (i : Instr) : Word :=
  match i with
  | .encSRne _ _ => 0xFFFFFFFF#32
  | .encSSr _ _ => 0xFFFFFFFF#32
  | .encHRne _ _ => 0x0000FFFF#32
  | .encHSr _ _ => 0x0000FFFF#32
  | .decS _ => 0x000000FF#32
  | .decH _ => 0x000000FF#32

/-- The bits of `rng` an operation reads (R39): `rng[22-wm:0]`, `rng[9-wm:0]`, or none. -/
def rngReadMask (i : Instr) : Word :=
  match i with
  | .encSRne _ _ => 0#32
  | .encSSr f _ => BitVec.ofNat 32 (2 ^ (23 - f.wm) - 1)
  | .encHRne _ _ => 0#32
  | .encHSr f _ => BitVec.ofNat 32 (2 ^ (10 - f.wm) - 1)
  | .decS _ => 0#32
  | .decH _ => 0#32

/-- The number of bits of `dst` that carry an operation's result (R38, R39); the bits above are zero. -/
def resultWidth (i : Instr) : Nat :=
  match i with
  | .encSRne _ _ => 8
  | .encSSr _ _ => 8
  | .encHRne _ _ => 8
  | .encHSr _ _ => 8
  | .decS _ => 32
  | .decH _ => 16

end Sys2Proof.Machine
end

