-- ==== Sys2Proof/Certificates/Slice0/Obligations.lean ====
section
/-! DEFINITION. The statements for the provers, one `def Obligations.<Name> : Prop` each, in the order of OBLIGATIONS.json.
Every one is about all states, operands and formats it names; `f.wf = true` says that the format is one of the legal ones of
30_encoding.md R40, which is the only condition under which an operation executes. -/

open Sys2Proof Sys2Proof.Machine

/-! ### The command word -/

/-- Tier 3, encoding.  The decoder gives back every legal operation from its command word (30_encoding.md R37, R41). -/
def Obligations.DecodeOfEncode : Prop :=
  ∀ i : Instr, i.wf = true → decodeLegal (encode i) = .ok i

/-- The other direction: a legal command word is the word of the operation it decodes to, but for bits 2 and 4 of a `DEC` word,
which `DEC` ignores (R37) and the encoder writes 0 (the model's choice, log entry 9). -/
def Obligations.EncodeOfDecode : Prop :=
  ∀ (w : Cmd) (i : Instr), decodeLegal w = .ok i →
    i.wf = true ∧ encode i = if w.getLsbD 0 then w &&& 0xFFEB#16 else w

/-- The opcode match alone, before the operand checks of R40 (the model splits R41's decoder so, log entry 8, DEDUCED: `decode` is
the match, `decodeLegal` the whole decoder, which refuses some of these words, `0x0000` for one, by `WidthSum` or
`FormatNotAdmitted`).  The opcode table of R41 with the fields of R37: `decode` answers a word that matches a row's `match` under
its `mask` with that row's operation, with `WM` in bits 7:5, `WE` in bits 10:8, `NZN` in bit 3, `CLIP` in bit 4. -/
def Obligations.TableRowsDecode : Prop :=
  ∀ w : Cmd,
    let f : Format := { wm := (w.extractLsb' 5 3).toNat, we := (w.extractLsb' 8 3).toNat, nzn := w.getLsbD 3 }
    (w &&& 0xF807#16 = 0x0000#16 → decode w = .ok (.encSRne f (w.getLsbD 4))) ∧
    (w &&& 0xF807#16 = 0x0004#16 → decode w = .ok (.encSSr f (w.getLsbD 4))) ∧
    (w &&& 0xF807#16 = 0x0002#16 → decode w = .ok (.encHRne f (w.getLsbD 4))) ∧
    (w &&& 0xF807#16 = 0x0006#16 → decode w = .ok (.encHSr f (w.getLsbD 4))) ∧
    (w &&& 0xF803#16 = 0x0001#16 → decode w = .ok (.decS f)) ∧
    (w &&& 0xF803#16 = 0x0003#16 → decode w = .ok (.decH f))

/-- Tier 1.  Words written out in the spec decode to the operations it names beside them: the five example lines of
30_encoding.md R43; `0x0466`, the `ENC.H.SR` word of 95_test_vectors.md section 3.3 (trace T19 of section 3.4 and program P3 use
it too); and the two words of section 3.5 with the ignored bits of `DEC` set. -/
def Obligations.SpecWordsDecode : Prop :=
  decodeLegal 0x0462#16 = .ok (.encHRne e4m3 false) ∧ decodeLegal 0x0478#16 = .ok (.encSRne e4m3Nzn true) ∧
  decodeLegal 0x055C#16 = .ok (.encSSr e5m2Nzn true) ∧ decodeLegal 0x0466#16 = .ok (.encHSr e4m3 false) ∧
  decodeLegal 0x0469#16 = .ok (.decS e4m3Nzn) ∧ decodeLegal 0x0543#16 = .ok (.decH e5m2) ∧
  decodeLegal 0x0475#16 = .ok (.decS e4m3) ∧ decodeLegal 0x0557#16 = .ok (.decH e5m2)

/-- The three checks of R40 in their order, each with its refusal; a word that fails none executes.  Which refusal is decided by
the command word alone (60_exceptions.md R104): the other ports are any. -/
def Obligations.IllegalWordsAreRefusedInOrder : Prop :=
  ∀ (w : Cmd) (src rng dst : Word),
    let reserved := (w.extractLsb' 11 5).toNat
    let wm := (w.extractLsb' 5 3).toNat
    let we := (w.extractLsb' 8 3).toNat
    (reserved ≠ 0 → step ⟨w, src, rng, dst⟩ = .refused .reservedBits) ∧
    (reserved = 0 → wm + we ≠ 7 → step ⟨w, src, rng, dst⟩ = .refused .widthSum) ∧
    (reserved = 0 → wm + we = 7 → (wm, we) ∉ Config.formats → step ⟨w, src, rng, dst⟩ = .refused .formatNotAdmitted) ∧
    (reserved = 0 → wm + we = 7 → (wm, we) ∈ Config.formats → ∃ v, step ⟨w, src, rng, dst⟩ = .next ⟨w, src, rng, v⟩)

/-! ### Steps and operations -/

/-- Tier 1.  A step runs the decoded operation: whatever else the ports carry, `step` at a state whose command word decodes to
`i` is `exec i` at that state.  Nothing is added around `exec`: there is no pc to move. -/
def Obligations.StepRunsTheDecodedOperation : Prop :=
  ∀ (s : State) (i : Instr), (decode s.cmd = .ok i → step s = exec i s) ∧ (decodeLegal s.cmd = .ok i → step s = exec i s)

/-- Tier 1.  Every legal operation completes, and its next state is the present one with its rule's value on `dst`
(30_encoding.md R36, last column). -/
def Obligations.LegalOperationsComplete : Prop :=
  ∀ (i : Instr) (s : State), i.wf = true → exec i s = .next (s.setDst (i.value s.src s.rng))

/-- The converse: an operation with an illegal format has no result, and the refusal is the first failing check of R40. -/
def Obligations.IllegalOperationsAreRefused : Prop :=
  ∀ (i : Instr) (s : State), i.wf = false →
    exec i s = .refused (if i.format.wm + i.format.we = 7 then .formatNotAdmitted else .widthSum)

/-- No data operand is illegal (R42): under a legal command word every `src` and every `rng` gets a result. -/
def Obligations.DataOperandsAreNeverIllegal : Prop :=
  ∀ w : Cmd, (∃ i, decodeLegal w = .ok i) → ∀ src rng dst : Word, ∃ v, step ⟨w, src, rng, dst⟩ = .next ⟨w, src, rng, v⟩

/-- The step is `dst = F(cmd, src, rng)` (10_state.md R20) and nothing else. -/
def Obligations.StepIsTheCoreFunction : Prop :=
  ∀ s : State, step s =
    match coreFunction s.cmd s.src s.rng with
    | .ok v => .next (s.setDst v)
    | .error r => .refused (refusalOf r)

/-- Frame: an operation leaves every port but `dst` as it is.  There is no other register, flag or memory to change
(10_state.md R20, R22). -/
def Obligations.OperationsWriteOnlyDst : Prop :=
  ∀ (i : Instr) (s t : State), exec i s = .next t → t.cmd = s.cmd ∧ t.src = s.src ∧ t.rng = s.rng

/-- The result depends on the bits its operation reads and on nothing else (R26 with the table of 30_encoding.md R39): two states
that agree on them, whatever their other bits and their `dst`, get the same result. -/
def Obligations.ResultReadsOnlyItsOperands : Prop :=
  ∀ (i : Instr) (s t : State), i.wf = true →
    s.src &&& srcReadMask i = t.src &&& srcReadMask i → s.rng &&& rngReadMask i = t.rng &&& rngReadMask i →
    ∃ v, exec i s = .next (s.setDst v) ∧ exec i t = .next (t.setDst v)

/-- A narrow result stands in `dst[7:0]`, a binary16 result in `dst[15:0]`, and the bits above are zero (R38, R39). -/
def Obligations.ResultsAreZeroExtended : Prop :=
  ∀ (i : Instr) (s : State), i.wf = true → ∃ v, exec i s = .next (s.setDst v) ∧ v.toNat < 2 ^ resultWidth i

/-- Evaluating an operation again gives the same result and changes nothing (20_memory.md R31). -/
def Obligations.StepIsIdempotent : Prop :=
  ∀ s t : State, step s = .next t → step t = .next t

/-- Invariant every step establishes and keeps: `dst` is the function of the ports' present values.  No premise on `s` is
needed. -/
def Obligations.StepSettlesTheOutput : Prop :=
  ∀ s t : State, step s = .next t → Settled t

/-- Tier 1.  The invariant at reset.  It holds there because the model's reset command word 0 (the model's choice, log entry 2)
is not legal. -/
def Obligations.ResetIsSettled : Prop := Settled State.reset

/-- At any time after the ports are driven, in particular right after reset, the result of an operation is `F(cmd, src, rng)`
(70_reset_and_hazards.md R112, 10_state.md R27). -/
def Obligations.ResultAtAnyTimeIsTheCoreFunction : Prop :=
  ∀ (s : State) (p : Presentation) (v : Word),
    (∃ t, step (p.drive s) = .next t ∧ t.dst = v) ↔ coreFunction p.cmd p.src p.rng = .ok v

/-! ### Runs -/

/-- The outcome of a run is the list of results, each determined by its own operands; a run with a refused operation is refused;
no run faults (70_reset_and_hazards.md R118, 60_exceptions.md R104). -/
def Obligations.RunOutcomeIsTheListOfResults : Prop :=
  ∀ (s : State) (ps : List Presentation),
    (∀ ds, walk s ps = .next ds ↔ List.Forall₂ (fun p d => coreFunction p.cmd p.src p.rng = .ok d) ps ds) ∧
    ((∃ r, walk s ps = .refused r) ↔ ∃ p ∈ ps, ∃ r, coreFunction p.cmd p.src p.rng = .error r)

/-- Operations are unordered (20_memory.md R33): the same operations presented in another order, from another state, give each
operation the same result. -/
def Obligations.OrderOfOperationsDoesNotMatter : Prop :=
  ∀ (s t : State) (ps qs : List Presentation) (ds : List Word), ps.Perm qs → walk s ps = .next ds →
    ∃ es, walk t qs = .next es ∧ (ps.zip ds).Perm (qs.zip es)

/-! ### The encoder -/

/-- The three fields of a wide pattern are slices of it and make it up again (40_formats.md R49, R47, R48). -/
def Obligations.DecompositionRoundTrips : Prop :=
  ∀ (T : WideType) (x : Nat), x < 2 ^ T.width →
    let w := decompose T x
    w.sign < 2 ∧ w.exponent < 2 ^ T.weo ∧ w.mantissa < 2 ^ T.mfmt ∧
    w.sign * 2 ^ (T.weo + T.mfmt) + w.exponent * 2 ^ T.mfmt + w.mantissa = x

/-- Infinities and NaNs (41_encoder.md R64): the NaN pattern `0x80` under `nzn`, else the signed infinity, plus 1 for a NaN;
for both rounding modes, every `rng` and both `clip` values. -/
def Obligations.EncodeOfSpecialInputs : Prop :=
  ∀ (T : WideType) (rm : RoundMode) (f : Format) (clip : Bool) (s : State), f.wf = true →
    let w := decompose T (wideOperand T s.src)
    w.exponent = 2 ^ T.weo - 1 →
    exec (Instr.enc T rm f clip) s = .next (s.setDst (BitVec.ofNat 32
      (if f.nzn then 0x80
       else (w.sign * 2 ^ 7 + (2 ^ f.we - 1) * 2 ^ f.wm) + (if w.mantissa = 0 then 0 else 1))))

/-- Zeros (R65): positive zero gives `0x00`; negative zero gives `0x80`, or `0x00` under `nzn`. -/
def Obligations.EncodeOfZeros : Prop :=
  ∀ (T : WideType) (rm : RoundMode) (f : Format) (clip : Bool) (s : State), f.wf = true →
    (wideOperand T s.src = 0 → exec (Instr.enc T rm f clip) s = .next (s.setDst 0x00#32)) ∧
    (wideOperand T s.src = 2 ^ (T.width - 1) →
      exec (Instr.enc T rm f clip) s = .next (s.setDst (if f.nzn then 0x00#32 else 0x80#32)))

/-- Tier 3.  `ENC.S.RNE` and `ENC.H.RNE` of a finite input are round-to-nearest-even into the narrow format, then the clip policy
(R80): exactly one `c` of `{0, ..., cmax + 1}` is nearest with the even one on a tie, and the result is its row of R80's table. -/
def Obligations.RneEncodeIsNearestEven : Prop :=
  ∀ (T : WideType) (f : Format) (clip : Bool) (s : State), f.wf = true →
    isSpecial T (wideOperand T s.src) = false →
    ∃ c, (∀ d, IsNearestEven f (wideMag T (wideOperand T s.src)) d ↔ d = c) ∧
      exec (Instr.enc T .rne f clip) s =
        .next (s.setDst (BitVec.ofNat 32 (roundedPattern f clip (decompose T (wideOperand T s.src)).sign c)))

/-- The magnitudes of the patterns `0, ..., cmax` and `top` increase, so that "nearest" and "between" in R80 and R57 are about
neighbouring patterns; the last one is `top`. -/
def Obligations.NarrowMagnitudesIncrease : Prop :=
  ∀ f : Format, f.defined = true →
    narrowMag f (f.cmax + 1) = topMag f ∧ ∀ c d, c < d → d ≤ f.cmax + 1 → narrowMag f c < narrowMag f d

/-- Tier 3.  `ENC.S.SR` and `ENC.H.SR` of a finite input (40_formats.md R57, 42_rounding.md R87): the result is one of the two
candidates that bracket the input, the upper one exactly when the input's fraction of the way to it, in units of `2^-drop`
rounded down, plus the low `drop` random bits reaches `2^drop`; then the clip policy. -/
def Obligations.SrEncodeTakesABracketingCandidate : Prop :=
  ∀ (T : WideType) (f : Format) (clip : Bool) (s : State), f.wf = true →
    isSpecial T (wideOperand T s.src) = false →
    let v := wideMag T (wideOperand T s.src)
    ∃ c, (∀ d, IsLowerCandidate f v d ↔ d = c) ∧
      exec (Instr.enc T .sr f clip) s =
        .next (s.setDst (BitVec.ofNat 32 (roundedPattern f clip (decompose T (wideOperand T s.src)).sign
          (stochasticChoice f (dropWidth T f) v s.rng.toNat c))))

/-- Of the `2^drop` values of the random field exactly as many give the upper candidate as the fraction field says (R87).  Where
saturation makes both candidates one result (`clip` at `cmax`) there is nothing to count. -/
def Obligations.SrRoundsUpForExactlyTheFraction : Prop :=
  ∀ (T : WideType) (f : Format) (clip : Bool) (src : Word) (c : Nat), f.wf = true →
    isSpecial T (wideOperand T src) = false →
    IsLowerCandidate f (wideMag T (wideOperand T src)) c → c ≤ f.cmax → (clip = false ∨ c < f.cmax) →
    ((Finset.range (2 ^ dropWidth T f)).filter fun r =>
        (Instr.enc T .sr f clip).value src (BitVec.ofNat 32 r) =
          BitVec.ofNat 32 (roundedPattern f clip (decompose T (wideOperand T src)).sign (c + 1))).card =
      fractionField f (dropWidth T f) (wideMag T (wideOperand T src)) c

/-- A finite input of magnitude `top` or more overflows in either rounding mode (41_encoder.md R73): the largest finite value of
its sign with `clip`, else the pattern `signed_inf`, under `nzn` too (the spec's decision D11, log entry 6). -/
def Obligations.OverflowFollowsTheClipPolicy : Prop :=
  ∀ (T : WideType) (rm : RoundMode) (f : Format) (clip : Bool) (s : State), f.wf = true →
    isSpecial T (wideOperand T s.src) = false → topMag f ≤ wideMag T (wideOperand T s.src) →
    let sign := (decompose T (wideOperand T s.src)).sign
    exec (Instr.enc T rm f clip) s = .next (s.setDst (BitVec.ofNat 32
      (sign * 2 ^ 7 + (if clip then f.maxExp * 2 ^ f.wm + (2 ^ f.wm - 1) else (2 ^ f.we - 1) * 2 ^ f.wm))))

/-- Every binary32 denormal is encoded to zero in both rounding modes and for every `rng` (R76, R77): of its sign, or unsigned
under `nzn`. -/
def Obligations.Binary32DenormalsEncodeToZero : Prop :=
  ∀ (rm : RoundMode) (f : Format) (clip : Bool) (s : State), f.wf = true → isWideDenormal .s s.src.toNat = true →
    exec (Instr.enc .s rm f clip) s =
      .next (s.setDst (if f.nzn then 0#32 else if s.src.getLsbD 31 then 0x80#32 else 0#32))

/-- Negating a finite input negates the result, except that a zero result has no sign under `nzn` (from R62 to R75). -/
def Obligations.EncodeIsSignSymmetric : Prop :=
  ∀ (T : WideType) (rm : RoundMode) (f : Format) (clip : Bool) (s : State), f.wf = true →
    isSpecial T (wideOperand T s.src) = false →
    ∃ v, exec (Instr.enc T rm f clip) s = .next (s.setDst v) ∧
      exec (Instr.enc T rm f clip) { s with src := s.src ^^^ BitVec.ofNat 32 (2 ^ (T.width - 1)) } =
        .next { s with src := s.src ^^^ BitVec.ofNat 32 (2 ^ (T.width - 1)),
                       dst := if f.nzn ∧ v = 0#32 then 0#32 else v ^^^ 0x80#32 }

/-- The conditions IEEE 754 would signal are absorbed into the result (60_exceptions.md R102): every operation completes; a NaN
input gives a narrow NaN; an overflow follows the clip policy; an underflow gives a result with exponent field 0. -/
def Obligations.ConditionsAreAbsorbedIntoResults : Prop :=
  ∀ (T : WideType) (rm : RoundMode) (f : Format) (clip : Bool) (s : State), f.wf = true →
    let x := wideOperand T s.src
    let rng := match rm with | .rne => 0 | .sr => s.rng.toNat
    ∃ v, exec (Instr.enc T rm f clip) s = .next (s.setDst v) ∧
      (conditionMet .invalid T f rm rng x = true → isNarrowNaN f v.toNat = true) ∧
      (conditionMet .overflow T f rm rng x = true →
        v.toNat = (decompose T x).sign * 2 ^ 7 + (if clip then f.cmax else (2 ^ f.we - 1) * 2 ^ f.wm)) ∧
      (conditionMet .underflow T f rm rng x = true → (narrowFields f v.toNat).exponent = 0)

/-- Tier 3.  On the whole domain where the spec calls the encoder defined for both wide types (00_scope.md R9), admitted or not,
the deterministic encoder is round-to-nearest-even. -/
def Obligations.RneEncoderIsNearestEvenWhereDefined : Prop :=
  ∀ (T : WideType) (f : Format) (clip : Bool) (x : Nat), f.defined = true → x < 2 ^ T.width → isSpecial T x = false →
    ∃ c, (∀ d, IsNearestEven f (wideMag T x) d ↔ d = c) ∧
      enc T f clip .rne 0 x = roundedPattern f clip (decompose T x).sign c

/-! ### The rounding unit -/

/-- The bounds of every intermediate value (42_rounding.md R84), for both rounding modes and every `rng`. -/
def Obligations.DatapathBounds : Prop :=
  ∀ (T : WideType) (f : Format) (rm : RoundMode) (rng x : Nat), f.wf = true → x < 2 ^ T.width → isSpecial T x = false →
    let u := roundIn T f rm rng x
    let act := (scale T f (decompose T x)).act
    u.mantPre < 2 ^ (T.mfmt + 1) ∧ u.mant < 2 ^ (T.mfmt + 1) ∧ u.addend < 2 ^ u.drop ∧
    (u.midpoint = true → 64 ≤ 2 ^ (u.drop - 1) ∧ 2 ^ (u.drop - 1) ≤ u.mant) ∧
    u.sum < 2 ^ (T.mfmt + 1) + 2 ^ u.drop - 1 ∧ bit u.sum (T.mfmt + 2) = 0 ∧
    -126 ≤ act ∧ act ≤ 127 ∧ -1 ≤ u.ediff ∧ u.ediff ≤ 120 ∧
    7 ≤ (u.drop : Int) + u.ediff ∧ (u.drop : Int) + u.ediff ≤ 141 ∧
    0 ≤ u.f8Exp ∧ 0 ≤ u.out.f8Exp ∧ u.f8Exp ≤ 144 ∧ u.out.f8Exp ≤ 144 ∧ (1 ≤ u.f8Exp ↔ bit u.mant T.mfmt = 1)

/-- For `RM = RNE` the unit rounds to nearest, ties to even (R86): with `q` the part retained and `r` the part discarded of the
mantissa before the shift, the result is `q + 1` above half, `q` below half, the even one at half. -/
def Obligations.RneUnitRoundsToNearestEven : Prop :=
  ∀ (T : WideType) (f : Format) (rng x : Nat), f.wf = true → x < 2 ^ T.width → isSpecial T x = false →
    let u := roundIn T f .rne rng x
    let q := u.mantPre / 2 ^ u.discarded
    let r := u.mantPre % 2 ^ u.discarded
    u.mant / 2 ^ u.drop = q ∧
    u.mant % 2 ^ u.drop = (if u.ediff = -1 then 2 * r else r / 2 ^ u.ediff.toNat) ∧
    (2 ^ (u.discarded - 1) < r → u.retained = q + 1) ∧
    (r < 2 ^ (u.discarded - 1) → u.retained = q) ∧
    (r = 2 ^ (u.discarded - 1) → u.retained = q + q % 2)

/-- For `RM = SR` (R87): the retained part is `q + 1` when `f + (rng mod 2^drop) >= 2^drop` and `q` otherwise; exactly `f` of
the `2^drop` field values round up; the sum of the retained parts over the field (its mean, times `2^drop`) is
`q * 2^drop + f`, the aligned mantissa, which is the input exactly when nothing was shifted out and is low by less than one
unit of it otherwise; with `f = 0` the result is `q`; bits at and above `drop` are not read. -/
def Obligations.SrUnitRoundsUpForExactlyTheField : Prop :=
  ∀ (T : WideType) (f : Format) (rng x : Nat), f.wf = true → x < 2 ^ T.width → isSpecial T x = false →
    let u := fun r => roundIn T f .sr r x
    let drop := (u rng).drop
    let mant := (u rng).mant
    let q := mant / 2 ^ drop
    let fld := mant % 2 ^ drop
    (u rng).retained = (if 2 ^ drop ≤ fld + rng % 2 ^ drop then q + 1 else q) ∧
    ((Finset.range (2 ^ drop)).filter fun r => (u r).retained = q + 1).card = fld ∧
    (Finset.range (2 ^ drop)).sum (fun r => (u r).retained) = mant ∧
    ((u rng).ediff = -1 → mant = 2 * (u rng).mantPre) ∧
    (0 ≤ (u rng).ediff → mant * 2 ^ (u rng).ediff.toNat ≤ (u rng).mantPre ∧
      (u rng).mantPre < (mant + 1) * 2 ^ (u rng).ediff.toNat) ∧
    (fld = 0 → (u rng).retained = q) ∧
    ∀ rng', rng' % 2 ^ drop = rng % 2 ^ drop → (u rng').out = (u rng).out

/-- The tie branch at its boundary (R88): at a tie the bit below the retained part survives the shift, so `mant - 1` never goes
below zero and its low bits are all ones below the top one; the smallest tie rounds to zero. -/
def Obligations.TieNeverMeetsMantissaZero : Prop :=
  ∀ (T : WideType) (f : Format) (rng x : Nat), f.wf = true → x < 2 ^ T.width → isSpecial T x = false →
    let u := roundIn T f .rne rng x
    u.midpoint = true →
      u.discarded ≤ T.mfmt + 1 ∧ u.ediff ≤ f.wm + 1 ∧ 2 ^ (u.drop - 1) ≤ u.mant ∧
      (u.mant - 1) % 2 ^ u.drop = 2 ^ (u.drop - 1) - 1 ∧ (u.mant = 2 ^ (u.drop - 1) → u.retained = 0)

/-- The clamped 32-bit forms agree with the unbounded ones (41_encoder.md R69, 42_rounding.md R82): the right shift clamped to 31,
and the midpoint mask guarded by `D <= 24`. -/
def Obligations.ClampedShiftsAgree : Prop :=
  ∀ (T : WideType) (f : Format) (rm : RoundMode) (rng x : Nat), f.wf = true → x < 2 ^ T.width → isSpecial T x = false →
    let u := roundIn T f rm rng x
    (0 < u.ediff → u.mant = u.mantPre >>> min u.ediff.toNat 31) ∧
    u.midpoint = (decide (u.discarded ≤ 24) && (u.mantPre &&& (2 ^ u.discarded - 1)) == 2 ^ (u.discarded - 1))

/-! ### The decoder -/

/-- Tier 3.  `DEC.S` and `DEC.H` are exact (43_decoder.md R100): a finite narrow pattern decodes to the finite wide pattern of the
same sign and magnitude, an infinity to the infinity of the same sign, a NaN to `DEC_NAN_T`. -/
def Obligations.DecodeIsExact : Prop :=
  ∀ (T : WideType) (f : Format) (s : State), f.wf = true →
    let y := narrowOperand s.src
    ∃ w, w < 2 ^ T.width ∧ exec (Instr.dec T f) s = .next (s.setDst (BitVec.ofNat 32 w)) ∧
      (isNarrowNaN f y = true → w = decNan T) ∧
      (isNarrowInf f y = true → w = wideInf T (y / 128)) ∧
      (isNarrowNaN f y = false → isNarrowInf f y = false →
        isSpecial T w = false ∧ (decompose T w).sign = y / 128 ∧ wideMag T w = narrowMag f (y % 128))

/-- Tier 1.  `DEC_NAN_T` is a NaN: all-ones exponent, nonzero mantissa (00_scope.md R8, R92), whatever the open choice is. -/
def Obligations.DecoderNaNIsNaN : Prop :=
  ∀ T : WideType, isWideNaN T (decNan T) = true ∧ decNan T < 2 ^ T.width

/-- Tier 3.  Round trip (R101): encoding a decoded pattern gives it back, for either rounding mode, any `rng` and either `clip`.
A narrow NaN comes back as `0x80` under `nzn`; else as the NaN pattern `signed_inf + 1` with the sign of `DEC_NAN_T`, which the
spec leaves open (U2). -/
def Obligations.EncodeOfDecodedIsIdentity : Prop :=
  ∀ (T : WideType) (rm : RoundMode) (f : Format) (clip : Bool) (s : State) (rng : Word), f.wf = true →
    let y := narrowOperand s.src
    ∃ t, exec (Instr.dec T f) s = .next t ∧
      exec (Instr.enc T rm f clip) { t with src := t.dst, rng := rng } =
        .next { t with src := t.dst, rng := rng,
                       dst := BitVec.ofNat 32 (if isNarrowNaN f y ∧ f.nzn = false
                         then f.signedInf (bit (decNan T) (T.width - 1)) + 1 else y) }

/-- The fast path of R93 is "an optimization, not a different function": where it is taken the general path gives the same
pattern. -/
def Obligations.FastPathEqualsGeneralPath : Prop :=
  ∀ (T : WideType) (f : Format) (nan y : Nat), f.wf = true → y < 256 → takesFastPath T f = true →
    decodeSpecial nan T f y = none → decodeGeneral T f y = fastPath y

/-- The leading-zero count is never taken of zero, and the normalization does what step 4 must achieve (R94): the shift is
between 1 and `wm` and brings the highest 1 to bit `wm`. -/
def Obligations.NormalizationMeetsNoZero : Prop :=
  ∀ (T : WideType) (f : Format) (nan y : Nat), f.wf = true → y < 256 → decodeSpecial nan T f y = none →
    (narrowFields f y).exponent = 0 →
    let m := (narrowFields f y).mantissa
    m ≠ 0 ∧ 1 ≤ normShift f m ∧ normShift f m ≤ f.wm ∧
    2 ^ f.wm ≤ m <<< normShift f m ∧ m <<< normShift f m < 2 ^ (f.wm + 1)

/-- The fields packed by R97 do not overlap and the result is finite; the largest rebiased exponents are those R97 names. -/
def Obligations.DecodedFieldsFit : Prop :=
  ∀ (T : WideType) (f : Format) (nan y : Nat), f.wf = true → y < 256 → decodeSpecial nan T f y = none →
    let n := rebias T f (normalizeNarrow f (narrowFields f y))
    let d := denormalize T n
    n.exponent ≤ (match T with | .s => 142 | .h => if f.wm = 3 then 22 else 30) ∧
    0 ≤ d.exponent ∧ d.exponent ≤ 2 ^ T.weo - 2 ∧ d.mantissa < 2 ^ T.mfmt

/-- Which decoded values are wide denormals: none of `DEC.S` (43_decoder.md R98); of `DEC.H` those of magnitude below `2^-14`,
which are the denormals of `E5M2` and the patterns `0x01` to `0x07` and `0x81` to `0x87` of `E5M2.NZN` (R93, R96; log entry 11
on the first). -/
def Obligations.WhichDecodedValuesAreDenormal : Prop :=
  ∀ (f : Format) (s : State), f.wf = true →
    let y := narrowOperand s.src
    (∃ t, exec (.decS f) s = .next t ∧ isWideDenormal .s t.dst.toNat = false) ∧
    (∃ t, exec (.decH f) s = .next t ∧
      (isWideDenormal .h t.dst.toNat = true ↔
        (f = e5m2 ∧ 1 ≤ y % 128 ∧ y % 128 ≤ 3) ∨ (f = e5m2Nzn ∧ 1 ≤ y % 128 ∧ y % 128 ≤ 7)))

/-- A sentence of 40_formats.md R59 read as it stands: "a narrow denormal decodes to its exact wide value, which is a wide normal
except for `DEC.H` with `E5M2.NZN`".  Expected to FAIL: `DEC.H E5M2` decodes `0x01` to `0x0100`, a binary16 denormal
(R93, R100; log entry 11). -/
def Obligations.NarrowDenormalsDecodeToNormalsExceptE5M2Nzn : Prop :=
  ∀ (T : WideType) (f : Format) (s t : State), f.wf = true → exec (Instr.dec T f) s = .next t →
    (narrowFields f (narrowOperand s.src)).exponent = 0 → (narrowFields f (narrowOperand s.src)).mantissa ≠ 0 →
    ¬(T = .h ∧ f = e5m2Nzn) → isWideDenormal T t.dst.toNat = false

/-- On the whole domain where the spec calls the decoder defined for both wide types (00_scope.md R9), the decoder is exact,
whatever the NaN pattern. -/
def Obligations.DecoderIsExactWhereDefined : Prop :=
  ∀ (T : WideType) (f : Format) (nan y : Nat), f.defined = true → y < 256 →
    (isNarrowNaN f y = true → decWith nan T f y = nan) ∧
    (isNarrowInf f y = true → decWith nan T f y = wideInf T (y / 128)) ∧
    (isNarrowNaN f y = false → isNarrowInf f y = false →
      decWith nan T f y < 2 ^ T.width ∧ isSpecial T (decWith nan T f y) = false ∧
      (decompose T (decWith nan T f y)).sign = y / 128 ∧ wideMag T (decWith nan T f y) = narrowMag f (y % 128))

/-! ### The host's notation -/

/-- Tier 3.  Quantize and dequantize, deterministic: `QDQ.<T>.RNE fmt, src` (30_encoding.md R44) of any finite input binds `t` to
the narrow pattern of the nearest element, ties to even (R80), and the result to that element's wide value, sign and magnitude
(R100; 95_test_vectors.md S7); an overflow is clipped, infinite, or under `nzn` without `clip` the number the pattern
`signed_inf` stands for (the spec's decision D11, log entry 6).  Whatever names were bound before stay bound. -/
def Obligations.QuantizeDequantizeIsNearest : Prop :=
  ∀ (T : WideType) (f : Format) (clip : Bool) (src rng : Word) (s : State) (bound : List (Nat × Word)) (c : Nat), f.wf = true →
    isSpecial T (wideOperand T src) = false → IsNearestEven f (wideMag T (wideOperand T src)) c →
    let sign := (decompose T (wideOperand T src)).sign
    ∃ d, walkLines s bound (qdq T .rne f clip (.lit src) (.lit rng)) =
        some (.next ((1, d) :: (0, BitVec.ofNat 32 (roundedPattern f clip sign c)) :: bound)) ∧
      IsDequantized T f clip sign c d.toNat

/-- Tier 3.  Quantize and dequantize, stochastic: `QDQ.<T>.SR fmt, src, rng` (R44) of any finite input binds `t` to the narrow
pattern of the one of the two bracketing candidates that the random bits choose (40_formats.md R57, 42_rounding.md R87), and the
result to that candidate's wide value, sign and magnitude, with the overflow as in the deterministic form (log entry 6). -/
def Obligations.QuantizeDequantizeSrTakesABracketingCandidate : Prop :=
  ∀ (T : WideType) (f : Format) (clip : Bool) (src rng : Word) (s : State) (bound : List (Nat × Word)) (c : Nat), f.wf = true →
    isSpecial T (wideOperand T src) = false → IsLowerCandidate f (wideMag T (wideOperand T src)) c →
    let sign := (decompose T (wideOperand T src)).sign
    let k := stochasticChoice f (dropWidth T f) (wideMag T (wideOperand T src)) rng.toNat c
    ∃ d, walkLines s bound (qdq T .sr f clip (.lit src) (.lit rng)) =
        some (.next ((1, d) :: (0, BitVec.ofNat 32 (roundedPattern f clip sign k)) :: bound)) ∧
      IsDequantized T f clip sign k d.toNat

/-- Quantize and dequantize of infinities and NaNs (R64, R92), in both rounding modes and for both `clip` values: under `nzn` all
of them become the narrow NaN `0x80` and then `DEC_NAN_T`; else an infinity comes back with its sign, and a NaN becomes
`DEC_NAN_T`, which the spec leaves open (U2, log entry 4). -/
def Obligations.QuantizeDequantizeOfSpecialInputs : Prop :=
  ∀ (T : WideType) (rm : RoundMode) (f : Format) (clip : Bool) (src rng : Word) (s : State) (bound : List (Nat × Word)),
    f.wf = true → isSpecial T (wideOperand T src) = true →
    let w := decompose T (wideOperand T src)
    walkLines s bound (qdq T rm f clip (.lit src) (.lit rng)) = some (.next
      ((1, BitVec.ofNat 32 (if f.nzn = true ∨ w.mantissa ≠ 0 then decNan T else wideInf T w.sign)) ::
       (0, BitVec.ofNat 32 (if f.nzn then 0x80 else f.signedInf w.sign + (if w.mantissa = 0 then 0 else 1))) :: bound))
end

