-- ==== Sys2Proof/Laws/State.lean ====
section
/-! SUPPORT. One lemma per port per update of the state. -/

namespace Sys2Proof.Machine

variable (s : State) (v : Word) (c : Cmd) (src rng : Word) (p : Presentation) (nbits w : Nat)

@[simp] theorem State.setDst_cmd : (s.setDst v).cmd = s.cmd := rfl
@[simp] theorem State.setDst_src : (s.setDst v).src = s.src := rfl
@[simp] theorem State.setDst_rng : (s.setDst v).rng = s.rng := rfl
@[simp] theorem State.setDst_dst : (s.setDst v).dst = v := rfl
@[simp] theorem State.setDst_setDst (u : Word) : (s.setDst u).setDst v = s.setDst v := rfl
@[simp] theorem State.setDst_self : s.setDst s.dst = s := rfl

theorem State.setDst_injective {s : State} {u v : Word} (h : s.setDst u = s.setDst v) : u = v :=
  congrArg State.dst h

@[simp] theorem State.present_cmd : (s.present c src rng).cmd = c := rfl
@[simp] theorem State.present_src : (s.present c src rng).src = src := rfl
@[simp] theorem State.present_rng : (s.present c src rng).rng = rng := rfl
@[simp] theorem State.present_dst : (s.present c src rng).dst = s.dst := rfl

@[simp] theorem Presentation.drive_cmd : (p.drive s).cmd = p.cmd := rfl
@[simp] theorem Presentation.drive_src : (p.drive s).src = p.src := rfl
@[simp] theorem Presentation.drive_rng : (p.drive s).rng = p.rng := rfl
@[simp] theorem Presentation.drive_dst : (p.drive s).dst = s.dst := rfl

@[simp] theorem State.withFetchWord_cmd : (s.withFetchWord nbits w).cmd = tableWord nbits w := rfl
@[simp] theorem State.withFetchWord_src : (s.withFetchWord nbits w).src = s.src := rfl
@[simp] theorem State.withFetchWord_rng : (s.withFetchWord nbits w).rng = s.rng := rfl
@[simp] theorem State.withFetchWord_dst : (s.withFetchWord nbits w).dst = s.dst := rfl

end Sys2Proof.Machine
end

