-- ==== Sys2Proof/Laws/Ops.lean ====
section
/-! SUPPORT. One spec lemma per shared operation: legality, `produce`, the arms of `exec`, `step`. -/

namespace Sys2Proof

theorem Format.wf_iff (f : Format) :
    f.wf = true ↔ f = e4m3 ∨ f = e4m3Nzn ∨ f = e5m2 ∨ f = e5m2Nzn := by
  obtain ⟨wm, we, nzn⟩ := f
  cases nzn <;>
    simp [Format.wf, Format.widthSumOk, Format.admitted, Config.formats, e4m3, e4m3Nzn, e5m2, e5m2Nzn] <;> omega

theorem legality_eq_none_iff (f : Format) : legality f = none ↔ f.wf = true := by
  simp only [legality, Format.wf, Format.widthSumOk, Format.admitted]
  by_cases h : f.wm + f.we = 7 <;> simp [h]

theorem legality_of_wf {f : Format} (h : f.wf = true) : legality f = none := (legality_eq_none_iff f).2 h

/-- Everything `decodeLegal` can do when it accepts a word. -/
theorem decodeLegal_ok_iff (w : Cmd) (i : Instr) :
    decodeLegal w = .ok i ↔ decode w = .ok i ∧ i.wf = true := by
  unfold decodeLegal
  cases hd : decode w with
  | error r => simp
  | ok j =>
    cases hl : legality j.format with
    | none =>
      have hj := (legality_eq_none_iff _).1 hl
      constructor
      · intro h
        obtain rfl : j = i := by simpa [hl] using h
        exact ⟨rfl, hj⟩
      · rintro ⟨h, -⟩
        simpa [hl] using h
    | some r =>
      have hj : j.wf ≠ true := fun h => by simp [legality_of_wf h] at hl
      constructor
      · simp [hl]
      · rintro ⟨h, hi⟩
        obtain rfl : j = i := by simpa using h
        exact absurd hi hj

namespace Machine

theorem produce_of_wf {f : Format} (h : f.wf = true) (v : Word) (s : State) :
    produce f v s = .next (s.setDst v) := by
  simp [produce, legality_of_wf h]

/-- Everything `produce` can do when it answers a next state. -/
theorem produce_next_iff {f : Format} {v : Word} {s t : State} :
    produce f v s = .next t ↔ f.wf = true ∧ t = s.setDst v := by
  unfold produce
  cases h : legality f with
  | none => simp [(legality_eq_none_iff f).1 h, eq_comm]
  | some r =>
    have : f.wf ≠ true := fun hw => by simp [legality_of_wf hw] at h
    simp [this]

/-- An arm of `exec` produces the value of its operation for the operands on the ports. -/
theorem exec_eq_produce (i : Instr) (s : State) : exec i s = produce i.format (i.value s.src s.rng) s := by
  cases i <;> rfl

/-- Everything an operation can do when it answers a next state: it drives `dst` with its value. -/
theorem exec_next_iff {i : Instr} {s t : State} :
    exec i s = .next t ↔ i.wf = true ∧ t = s.setDst (i.value s.src s.rng) := by
  rw [exec_eq_produce, produce_next_iff]; rfl

theorem enc_wf (T : WideType) (rm : RoundMode) (f : Format) (clip : Bool) :
    (Instr.enc T rm f clip).wf = f.wf := by
  cases T <;> cases rm <;> rfl

theorem dec_wf (T : WideType) (f : Format) : (Instr.dec T f).wf = f.wf := by
  cases T <;> rfl

theorem enc_value (T : WideType) (rm : RoundMode) (f : Format) (clip : Bool) (src rng : Word) :
    (Instr.enc T rm f clip).value src rng =
      narrowResult (enc T f clip rm (match rm with | .rne => 0 | .sr => rng.toNat) (wideOperand T src)) := by
  cases T <;> cases rm <;> rfl

theorem dec_value (T : WideType) (f : Format) (src rng : Word) :
    (Instr.dec T f).value src rng = wideResult T (dec T f (narrowOperand src)) := by
  cases T <;> rfl

/-- Everything a step can do when it answers a next state. -/
theorem step_next_iff {s t : State} :
    step s = .next t ↔ ∃ i, decodeLegal s.cmd = .ok i ∧ t = s.setDst (i.value s.src s.rng) := by
  unfold step
  cases h : decode s.cmd with
  | error r => simp [decodeLegal_ok_iff, h]
  | ok i =>
    simp only [exec_next_iff, decodeLegal_ok_iff, h]
    constructor
    · rintro ⟨hw, rfl⟩; exact ⟨i, ⟨rfl, hw⟩, rfl⟩
    · rintro ⟨j, ⟨hj, hw⟩, rfl⟩
      obtain rfl : i = j := by simpa using hj
      exact ⟨hw, rfl⟩

/-- No step faults: `Fault` has no value (60_exceptions.md R102). -/
theorem step_next_or_refused (s : State) : (∃ t, step s = .next t) ∨ ∃ r, step s = .refused r := by
  cases h : step s with
  | next t => exact .inl ⟨t, rfl⟩
  | refused r => exact .inr ⟨r, rfl⟩
  | fault r => exact nomatch r

end Machine

end Sys2Proof
end

