-- ==== Sys2Proof/Laws/PerInstr.lean ====
section
/-! SUPPORT. Facts about operations as syntax, one lemma per constructor. -/

namespace Sys2Proof

/-- Everything `packCmd` writes below the format fields, and that the reserved bits stay zero for a legal format
(30_encoding.md R37, R40). -/
theorem packCmd_and_rowMask (op t sr clip : Bool) {f : Format} (h : f.wf = true) :
    packCmd op t sr clip f &&& 0xF807#16 = packCmd op t sr false { wm := 0, we := 0, nzn := false } := by
  rcases (Format.wf_iff f).1 h with rfl | rfl | rfl | rfl <;>
    cases op <;> cases t <;> cases sr <;> cases clip <;> decide

namespace Laws.TableRow

/-- The command word of a legal operation matches its row of the opcode table (R41). -/
def Statement (i : Instr) : Prop := i.wf = true → encode i &&& i.rowMask = i.rowMatch

theorem encSRne (f : Format) (clip : Bool) : Statement (.encSRne f clip) := fun h =>
  (packCmd_and_rowMask _ _ _ _ h).trans (show packCmd false false false false _ = 0x0000#16 by decide)

theorem encSSr (f : Format) (clip : Bool) : Statement (.encSSr f clip) := fun h =>
  (packCmd_and_rowMask _ _ _ _ h).trans (show packCmd false false true false _ = 0x0004#16 by decide)

theorem encHRne (f : Format) (clip : Bool) : Statement (.encHRne f clip) := fun h =>
  (packCmd_and_rowMask _ _ _ _ h).trans (show packCmd false true false false _ = 0x0002#16 by decide)

theorem encHSr (f : Format) (clip : Bool) : Statement (.encHSr f clip) := fun h =>
  (packCmd_and_rowMask _ _ _ _ h).trans (show packCmd false true true false _ = 0x0006#16 by decide)

theorem decS (f : Format) : Statement (.decS f) := fun h => by
  rcases (Format.wf_iff f).1 h with rfl | rfl | rfl | rfl <;> decide

theorem decH (f : Format) : Statement (.decH f) := fun h => by
  rcases (Format.wf_iff f).1 h with rfl | rfl | rfl | rfl <;> decide

end Laws.TableRow

end Sys2Proof
end

