-- ==== Sys2Proof/Laws/Values.lean ====
section
/-! SUPPORT. The magnitudes in units of `2^-149` are the spec's value formulas (40_formats.md R47, R48, R55). -/

namespace Sys2Proof.Machine

theorem abs_neg_one_pow_mul (n : Nat) {q : ℚ} (h : 0 ≤ q) : |(-1) ^ n * q| = q := by
  rw [abs_mul, abs_pow, abs_neg, abs_one, one_pow, one_mul, abs_of_nonneg h]

theorem two_zpow_shift (k : Nat) (e : ℤ) (h : e = k - 149) : ((2 ^ k : ℕ) : ℚ) * 2 ^ (-149 : ℤ) = 2 ^ e := by
  rw [h, sub_eq_add_neg, zpow_add₀ (by norm_num), zpow_natCast]; push_cast; ring

/-- `wideMag` is the magnitude of `valH`, `valS` in units of `2^-149`. -/
theorem abs_wideVal (T : WideType) (x : Nat) : |wideVal T x| = (wideMag T x : ℚ) * 2 ^ (-149 : ℤ) := by
  have hT : (T.wbias : ℤ) + T.mfmt ≤ 150 ∧ T.wbias + T.mfmt ≤ 150 := by cases T <;> decide
  rw [wideVal, abs_neg_one_pow_mul _ (by positivity), wideMag]
  split
  · rw [Nat.cast_mul, mul_assoc, two_zpow_shift _ (1 - (T.wbias : ℤ) - T.mfmt) (by omega)]
  · rename_i h
    rw [Nat.cast_mul, Nat.cast_mul, mul_assoc, mul_assoc, ← mul_assoc ((2 ^ _ : ℕ) : ℚ), ← Nat.cast_mul, ← pow_add,
      two_zpow_shift _ (((decompose T x).exponent : ℤ) - T.wbias - T.mfmt) (by omega)]

theorem narrowFields_exponent_mantissa {f : Format} (h : f.wf = true) (y : Nat) :
    (narrowFields f y).exponent = (y % 128) >>> f.wm ∧ (narrowFields f y).mantissa = (y % 128) % 2 ^ f.wm := by
  rcases (Format.wf_iff f).1 h with rfl | rfl | rfl | rfl <;>
    simp only [narrowFields, slice, e4m3, e4m3Nzn, e5m2, e5m2Nzn, Nat.shiftRight_eq_div_pow] <;> norm_num <;> omega

/-- `narrowMag` is the magnitude of `valN` in units of `2^-149`. -/
theorem abs_narrowVal {f : Format} (h : f.wf = true) (y : Nat) :
    |narrowVal f y| = (narrowMag f (y % 128) : ℚ) * 2 ^ (-149 : ℤ) := by
  have hb : (f.bias : ℤ) + f.wm ≤ 150 ∧ f.bias + f.wm ≤ 150 := by
    rcases (Format.wf_iff f).1 h with rfl | rfl | rfl | rfl <;> decide
  have hd : f.den = 1 - (f.bias : ℤ) := rfl
  rw [narrowVal, abs_neg_one_pow_mul _ (by positivity), narrowMag, (narrowFields_exponent_mantissa h y).1,
    (narrowFields_exponent_mantissa h y).2]
  split
  · rw [Nat.cast_mul, mul_assoc, two_zpow_shift _ (f.den - f.wm) (by omega)]
  · rename_i hne
    generalize (y % 128) >>> f.wm = e at hne
    rw [Nat.cast_mul, Nat.cast_mul, mul_assoc, mul_assoc, ← mul_assoc ((2 ^ _ : ℕ) : ℚ), ← Nat.cast_mul, ← pow_add,
      two_zpow_shift _ ((e : ℤ) - f.bias - f.wm) (by omega)]

theorem clippedElement_of_le {f : Format} {c : Nat} (h : c ≤ f.cmax) (clip : Bool) : clippedElement f clip c = c :=
  if_neg (by omega)

@[simp] theorem clippedElement_clip (f : Format) : clippedElement f true (f.cmax + 1) = f.cmax := if_pos rfl

@[simp] theorem clippedElement_noClip (f : Format) : clippedElement f false (f.cmax + 1) = f.signedInf 0 := if_pos rfl

/-- Without an overflow the clip policy plays no part: sign and magnitude are those of `c`. -/
theorem isDequantized_of_le {T : WideType} {f : Format} {clip : Bool} {sign c d : Nat} (h : c ≤ f.cmax) :
    IsDequantized T f clip sign c d ↔
      d < 2 ^ T.width ∧ isSpecial T d = false ∧
        (decompose T d).sign = (if c = 0 ∧ f.nzn = true then 0 else sign) ∧ wideMag T d = narrowMag f c := by
  rw [IsDequantized, if_neg (by omega), clippedElement_of_le h]

/-- An overflow without `clip` and `nzn` is an infinity. -/
theorem isDequantized_infinity {T : WideType} {f : Format} {sign d : Nat} (h : f.nzn = false) :
    IsDequantized T f false sign (f.cmax + 1) d ↔ d = wideInf T sign := by
  rw [IsDequantized, if_pos ⟨rfl, rfl, h⟩]

end Sys2Proof.Machine
end

