-- ==== Sys2Proof/Tests/Slice0.lean ====
section
/-! SUPPORT. The model's own tests.  Expected results are the spec's: the tables of 30_encoding.md, 40_formats.md, 43_decoder.md
and 95_test_vectors.md, named at each test.  A theorem `witness_<statement>…` shows operands that meet all hypotheses of that
statement (of a clause of it, at a boundary, where it has several). -/

namespace Sys2Proof.Tests

open Sys2Proof.Machine

/-- A state with given input ports. -/
def ports (cmd : Cmd) (src rng : Word) : State := { cmd := cmd, src := src, rng := rng, dst := 0#32 }

/-- What one step leaves on `dst`, if it gives a result. -/
def stepDst (cmd : Cmd) (src rng : Word) : Option Word :=
  match step (ports cmd src rng) with
  | .next t => some t.dst
  | .refused _ => none
  | .fault _ => none

/-- The refusal of one step, if it is refused. -/
def stepRefusal (cmd : Cmd) : Option Refusal :=
  match step (ports cmd 0#32 0#32) with
  | .next _ => none
  | .refused r => some r
  | .fault _ => none

/-! ### WellFormed refuses an ill-formed term for each check of 30_encoding.md R40 -/

theorem test_wf_refuses_width_sum : Instr.wf (.encSRne { wm := 3, we := 3, nzn := false } false) = false := by decide
theorem test_wf_refuses_format : Instr.wf (.decH { wm := 4, we := 3, nzn := true }) = false := by decide
theorem test_wf_refuses_wide_field : Instr.wf (.encHSr { wm := 11, we := 4, nzn := false } true) = false := by decide
theorem test_decode_refuses_reserved : decode 0x0C62#16 = .error .reservedBits := by decide

/-! ### Decoding: bits 15:11 reserved, 10:8 WE, 7:5 WM, 4 CLIP, 3 NZN, 2 SR, 1 T, 0 OP (30_encoding.md R37) -/

theorem test_decode_encSRne : decode 0b0000010001111000#16 = .ok (.encSRne e4m3Nzn true) := by decide
theorem test_decode_encSSr : decode 0b0000010101011100#16 = .ok (.encSSr e5m2Nzn true) := by decide
theorem test_decode_encHRne : decode 0b0000010001100010#16 = .ok (.encHRne e4m3 false) := by decide
theorem test_decode_encHSr : decode 0b0000010101000110#16 = .ok (.encHSr e5m2 false) := by decide
theorem test_decode_decS : decode 0b0000010001101001#16 = .ok (.decS e4m3Nzn) := by decide
theorem test_decode_decH : decode 0b0000010101000011#16 = .ok (.decH e5m2) := by decide
/-- 95_test_vectors.md section 3.5: `SR` and `CLIP` set in a `DEC` word are ignored. -/
theorem test_decode_dec_ignores : decode 0x0475#16 = .ok (.decS e4m3) ∧ decode 0x0557#16 = .ok (.decH e5m2) := by decide

/-- 30_encoding.md R43, the example lines and their command words. -/
theorem test_encode_spec_lines :
    encode (.encHRne e4m3 false) = 0x0462#16 ∧ encode (.encSRne e4m3Nzn true) = 0x0478#16 ∧
    encode (.encSSr e5m2Nzn true) = 0x055C#16 ∧ encode (.decS e4m3Nzn) = 0x0469#16 ∧ encode (.decH e5m2) = 0x0543#16 := by
  decide

/-- 95_test_vectors.md section 3.5: the refusals, first failing check first. -/
theorem test_refusals :
    stepRefusal 0xFFFF#16 = some .reservedBits ∧ stepRefusal 0x8462#16 = some .reservedBits ∧
    stepRefusal 0x0F00#16 = some .reservedBits ∧ stepRefusal 0x0000#16 = some .widthSum ∧
    stepRefusal 0x07E0#16 = some .widthSum ∧ stepRefusal 0x0380#16 = some .formatNotAdmitted ∧
    stepRefusal 0x00E0#16 = some .formatNotAdmitted ∧ stepRefusal 0x0700#16 = some .formatNotAdmitted := by
  decide

theorem test_decodeTableWord : decodeTableWord 16 0x0462 = some (.encHRne e4m3 false) := by decide

theorem test_withFetchWord :
    (match step (State.reset.withFetchWord 16 0x0462) with | .next t => some t.dst | _ => none) = some 0#32 := by decide

/-! ### One step per operation, expected results from 95_test_vectors.md -/

/-- Trace T14: a low 1 the shift discards makes it no tie; and the tie T13 itself goes to even, zero. -/
theorem test_encSRne_tie : stepDst 0x0460#16 0x3A800001#32 0#32 = some 0x01#32 ∧
    stepDst 0x0460#16 0x3A800000#32 0#32 = some 0x00#32 := by decide
/-- S4: the clip policy at the overflow threshold 248; -256 under `nzn` without clip gives the pattern of D11. -/
theorem test_encSRne_overflow : stepDst 0x0460#16 0x43780000#32 0#32 = some 0x78#32 ∧
    stepDst 0x0470#16 0x43780000#32 0#32 = some 0x77#32 ∧ stepDst 0x0468#16 0xC3800000#32 0#32 = some 0xF8#32 := by decide
/-- Section 3.3 and traces T17, T18: the two sides of the stochastic threshold, a high bit of `rng` ignored. -/
theorem test_encSSr_threshold : stepDst 0x055C#16 0x3F900000#32 0x00100000#32 = some 0x41#32 ∧
    stepDst 0x055C#16 0x3F900000#32 0x800FFFFF#32 = some 0x40#32 := by decide
/-- Section 3.3: a negative result that rounds to zero loses its sign under `nzn`. -/
theorem test_encSSr_zero : stepDst 0x046C#16 0xBA000001#32 0x8007FFFF#32 = some 0x00#32 ∧
    stepDst 0x046C#16 0xBA000001#32 0x00080000#32 = some 0x81#32 := by decide
/-- S3 and section 3.1: 1.0625 with the upper half of `src` set, and the odd tie 1.1875. -/
theorem test_encHRne_tie : stepDst 0x0462#16 0xFFFF3C40#32 0#32 = some 0x38#32 ∧
    stepDst 0x0462#16 0x00003CC0#32 0#32 = some 0x3A#32 := by decide
/-- Traces T6, T7: `ediff = -1`, a binary16 denormal becomes an `E5M2.NZN` normal, and a tie there. -/
theorem test_encHRne_left_shift : stepDst 0x055A#16 0x0200#32 0#32 = some 0x04#32 ∧
    stepDst 0x055A#16 0x00C0#32 0#32 = some 0x02#32 := by decide
/-- Trace T19: a stochastic carry out of the mantissa. -/
theorem test_encHSr_carry : stepDst 0x0466#16 0x3FC0#32 0x7F#32 = some 0x40#32 := by decide
/-- Section 3.3: 2^-24 with `ediff = -1`, both sides of its threshold; an infinity reads no `rng`. -/
theorem test_encHSr_threshold : stepDst 0x055E#16 0x0001#32 0x800000FD#32 = some 0x00#32 ∧
    stepDst 0x055E#16 0x0001#32 0x000000FE#32 = some 0x01#32 ∧
    stepDst 0x0466#16 0x7C00#32 0xFFFFFFFF#32 = some 0x78#32 := by decide
/-- Sections 2 and S5: ignored bits of `src`; the largest denormal of `E4M3`; the all-ones exponent of `E4M3.NZN` is finite. -/
theorem test_decS_values : stepDst 0x0475#16 0xABCDEF38#32 0#32 = some 0x3F800000#32 ∧
    stepDst 0x0461#16 0x07#32 0#32 = some 0x3C600000#32 ∧ stepDst 0x0469#16 0xFF#32 0#32 = some 0xC3700000#32 := by decide
/-- S6, S1: negative infinity and negative zero. -/
theorem test_decS_special : stepDst 0x0461#16 0xF8#32 0#32 = some 0xFF800000#32 ∧
    stepDst 0x0461#16 0x80#32 0#32 = some 0x80000000#32 := by decide
/-- S5: `E5M2.NZN` patterns that give binary16 denormals. -/
theorem test_decH_denormals : stepDst 0x054B#16 0x01#32 0#32 = some 0x0080#32 ∧
    stepDst 0x054B#16 0x03#32 0#32 = some 0x0180#32 ∧ stepDst 0x054B#16 0x84#32 0#32 = some 0x8200#32 := by decide
/-- S9: the fast path of `E5M2`; section 2: `DEC.H E4M3, 0x38`. -/
theorem test_decH_fast_path : stepDst 0x0543#16 0xFB#32 0#32 = some 0xFB00#32 ∧
    stepDst 0x0463#16 0x38#32 0#32 = some 0x3C00#32 := by decide

/-- S2, S9, with the spec's default `DEC_NAN_T` (the model leaves it open, log entry 4): narrow NaNs decode to it. -/
theorem test_decoder_default_nan :
    decWith Config.defaultDecNanS .s e4m3Nzn 0x80 = 0x7F800001 ∧ decWith Config.defaultDecNanH .h e5m2 0x7E = 0x7C01 ∧
    decWith Config.defaultDecNanS .s e4m3 0xF9 = 0x7F800001 := by decide

/-- 40_formats.md R56 and 41_encoder.md R63, R73: bias, `max_exp`, largest finite pattern, `signed_inf`. -/
theorem test_format_constants :
    (e4m3.bias, e4m3.maxExp, e4m3.cmax, e4m3.signedInf 0) = (7, 14, 0x77, 0x78) ∧
    (e4m3Nzn.bias, e4m3Nzn.maxExp, e4m3Nzn.cmax, e4m3Nzn.signedInf 1) = (8, 15, 0x7F, 0xF8) ∧
    (e5m2.bias, e5m2.maxExp, e5m2.cmax, e5m2.signedInf 0) = (15, 30, 0x7B, 0x7C) ∧
    (e5m2Nzn.bias, e5m2Nzn.maxExp, e5m2Nzn.cmax, e5m2Nzn.signedInf 1) = (16, 31, 0x7F, 0xFC) := by decide

/-- 43_decoder.md R95: the rebias amounts. -/
theorem test_rebias_amounts :
    [e4m3, e4m3Nzn, e5m2, e5m2Nzn].map (fun f => ((rebias .s f ⟨0, 0⟩).exponent, (rebias .h f ⟨0, 0⟩).exponent)) =
      [(120, 8), (119, 7), (112, 0), (111, -1)] := by decide

/-- 95_test_vectors.md section 3.4, trace T5: every signal of a denormal that rounds up to the smallest normal. -/
theorem test_trace_T5 :
    let u := roundIn .h e4m3 .rne 0 0x2380
    (u.mantPre, u.ediff, u.discarded, u.midpoint, u.mant, u.f8Exp) = (0x780, 1, 8, true, 0x3C0, 0) ∧
    (u.odd, u.addend, u.sum, u.out) = (true, 0x40, 0x400, { mant := 0x400, f8Exp := 1 }) := by decide

/-- Traces T10 and T15: the carry beyond `max_exp`; negative zero. -/
theorem test_trace_T10_T15 :
    (roundIn .s e4m3 .rne 0 0x43780000).out = { mant := 0x800000, f8Exp := 15 } ∧
    (roundIn .s e4m3 .rne 0 0x80000000).ediff = 120 ∧ (roundIn .s e4m3 .rne 0 0x80000000).midpoint = false := by decide

/-- Program P1, lines 1 and 2, is the pseudo-operation `QDQ.H.RNE E4M3, 0x3C40` (30_encoding.md R44). -/
theorem test_qdq_P1 :
    (match walkLines State.reset [] (qdq .h .rne e4m3 false (.lit 0x3C40#32) (.lit 0#32)) with
      | some (.next b) => some b
      | _ => none) = some [(1, 0x3C00#32), (0, 0x38#32)] := by decide

/-- Program P3 as `QDQ.H.SR`: the two sides of its threshold; and -1.0625 keeps its sign. -/
theorem test_qdq_P3 :
    (match walkLines State.reset [] (qdq .h .sr e4m3 false (.lit 0x3C20#32) (.lit 0x5F#32) ++
        qdq .h .sr e4m3 false (.lit 0xBC20#32) (.lit 0x60#32)) with
      | some (.next b) => some b
      | _ => none) = some [(1, 0xBC80#32), (0, 0xB9#32), (1, 0x3C00#32), (0, 0x38#32)] := by decide

theorem test_qdq_lines_wf :
    (qdq .s .sr e5m2 true (.lit 1#32) (.lit 2#32)).all Line.wf = true ∧
    (qdq .s .rne e5m2 true (.lit 1#32) (.lit 2#32)).all Line.wf = true := by decide

/-! ### Witnesses -/

theorem witness_DecodeOfEncode : (Instr.encHSr e5m2Nzn true).wf = true := by decide
theorem witness_EncodeOfDecode_enc : decodeLegal 0x055E#16 = .ok (.encHSr e5m2Nzn true) := by decide
theorem witness_EncodeOfDecode_dec : decodeLegal 0x0557#16 = .ok (.decH e5m2) := by decide

/-- The first two words pass the opcode match and fail an operand check of R40. -/
theorem witness_TableRowsDecode :
    0x0700#16 &&& 0xF807#16 = 0x0000#16 ∧ 0x07FC#16 &&& 0xF807#16 = 0x0004#16 ∧ 0x0462#16 &&& 0xF807#16 = 0x0002#16 ∧
    0x0546#16 &&& 0xF807#16 = 0x0006#16 ∧ 0x0475#16 &&& 0xF803#16 = 0x0001#16 ∧ 0x0557#16 &&& 0xF803#16 = 0x0003#16 := by
  decide

/-- One word for each clause: reserved bits from 1 to 31, a width sum of 6 and of 14, `(7,0)`, both admitted formats. -/
theorem witness_IllegalWordsAreRefusedInOrder :
    (0x0C62#16).extractLsb' 11 5 ≠ 0#5 ∧ (0xFFFF#16).extractLsb' 11 5 = 31#5 ∧
    ((0x0360#16).extractLsb' 11 5 = 0#5 ∧ ((0x0360#16).extractLsb' 5 3).toNat + ((0x0360#16).extractLsb' 8 3).toNat = 6) ∧
    ((0x07E0#16).extractLsb' 11 5 = 0#5 ∧ ((0x07E0#16).extractLsb' 5 3).toNat + ((0x07E0#16).extractLsb' 8 3).toNat = 14) ∧
    ((0x00E0#16).extractLsb' 11 5 = 0#5 ∧ ((0x00E0#16).extractLsb' 5 3).toNat + ((0x00E0#16).extractLsb' 8 3).toNat = 7 ∧
      (((0x00E0#16).extractLsb' 5 3).toNat, ((0x00E0#16).extractLsb' 8 3).toNat) ∉ Config.formats) ∧
    (((0x0460#16).extractLsb' 5 3).toNat, ((0x0460#16).extractLsb' 8 3).toNat) ∈ Config.formats ∧
    (((0x0540#16).extractLsb' 5 3).toNat, ((0x0540#16).extractLsb' 8 3).toNat) ∈ Config.formats := by
  decide

theorem witness_StepRunsTheDecodedOperation :
    decode (ports 0x0462#16 0x3C40#32 0#32).cmd = .ok (.encHRne e4m3 false) ∧
    decodeLegal (ports 0x0462#16 0x3C40#32 0#32).cmd = .ok (.encHRne e4m3 false) := by decide

theorem witness_LegalOperationsComplete :
    [Instr.encSRne e4m3 false, .encSSr e4m3Nzn true, .encHRne e5m2 true, .encHSr e5m2Nzn false, .decS e4m3, .decH e5m2Nzn].all
      Instr.wf = true := by decide

theorem witness_IllegalOperationsAreRefused :
    (Instr.decS { wm := 3, we := 5, nzn := false }).wf = false ∧
    (Instr.encHRne { wm := 1, we := 6, nzn := false } false).wf = false := by decide

theorem witness_DataOperandsAreNeverIllegal : ∃ i, decodeLegal 0x0544#16 = .ok i := ⟨.encSSr e5m2 false, by decide⟩

theorem witness_OperationsWriteOnlyDst :
    exec (.decS e4m3) (ports 0#16 0x38#32 0#32) = .next ((ports 0#16 0x38#32 0#32).setDst 0x3F800000#32) := rfl

theorem witness_ResultReadsOnlyItsOperands :
    (Instr.encHSr e4m3 false).wf = true ∧
    0xFFFF3C20#32 &&& srcReadMask (.encHSr e4m3 false) = 0x00003C20#32 &&& srcReadMask (.encHSr e4m3 false) ∧
    0xFFFFFFE0#32 &&& rngReadMask (.encHSr e4m3 false) = 0x00000060#32 &&& rngReadMask (.encHSr e4m3 false) := by decide

theorem witness_ResultsAreZeroExtended : (Instr.decH e4m3).wf = true := by decide

theorem witness_StepIsIdempotent :
    step (ports 0x0462#16 0x3C40#32 0#32) = .next ((ports 0x0462#16 0x3C40#32 0#32).setDst 0x38#32) := rfl

theorem witness_StepSettlesTheOutput :
    step (ports 0x0543#16 0x3C#32 0#32) = .next ((ports 0x0543#16 0x3C#32 0#32).setDst 0x3C00#32) := rfl

theorem witness_OrderOfOperationsDoesNotMatter :
    [(⟨0x0462#16, 0x3C40#32, 0#32⟩ : Presentation), ⟨0x0463#16, 0x38#32, 0#32⟩].Perm
      [⟨0x0463#16, 0x38#32, 0#32⟩, ⟨0x0462#16, 0x3C40#32, 0#32⟩] ∧
    walk State.reset [⟨0x0462#16, 0x3C40#32, 0#32⟩, ⟨0x0463#16, 0x38#32, 0#32⟩] = .next [0x38#32, 0x3C00#32] :=
  ⟨List.Perm.swap _ _ _, rfl⟩

theorem witness_DecompositionRoundTrips : 0xFFFFFFFF < 2 ^ WideType.width .s ∧ 0xFFFF < 2 ^ WideType.width .h := by decide

/-- Infinity and NaN of both wide types. -/
theorem witness_EncodeOfSpecialInputs :
    e4m3.wf = true ∧ (decompose .s (wideOperand .s 0x7F800000#32)).exponent = 2 ^ WideType.weo .s - 1 ∧
    (decompose .s (wideOperand .s 0xFFFFFFFF#32)).exponent = 2 ^ WideType.weo .s - 1 ∧
    (decompose .h (wideOperand .h 0x7C01#32)).exponent = 2 ^ WideType.weo .h - 1 := by decide

theorem witness_EncodeOfZeros :
    e5m2Nzn.wf = true ∧ wideOperand .h 0xFFFF0000#32 = 0 ∧ wideOperand .s 0x80000000#32 = 2 ^ (WideType.width .s - 1) ∧
    wideOperand .h 0x00008000#32 = 2 ^ (WideType.width .h - 1) := by decide

theorem witness_RneEncodeIsNearestEven :
    e4m3.wf = true ∧ isSpecial .s (wideOperand .s 0x7F7FFFFF#32) = false ∧
    isSpecial .h (wideOperand .h 0x3C40#32) = false := by decide

theorem witness_NarrowMagnitudesIncrease :
    (Format.mk 6 1 false).defined = true ∧ e5m2Nzn.defined = true ∧ 0 < 1 ∧ e5m2Nzn.cmax < e5m2Nzn.cmax + 1 := by decide

theorem witness_SrEncodeTakesABracketingCandidate :
    e5m2Nzn.wf = true ∧ isSpecial .s (wideOperand .s 0x3F900000#32) = false := by decide

/-- 1.03125 to `E4M3` as binary16: `c = 0x38`; and the largest binary16 value to `E5M2`, `c = cmax` without clip. -/
theorem witness_SrRoundsUpForExactlyTheFraction :
    e4m3.wf = true ∧ isSpecial .h (wideOperand .h 0x3C20#32) = false ∧
    IsLowerCandidate e4m3 (wideMag .h (wideOperand .h 0x3C20#32)) 0x38 ∧ 0x38 < e4m3.cmax ∧
    e5m2.wf = true ∧ isSpecial .h (wideOperand .h 0x7BFF#32) = false ∧
    IsLowerCandidate e5m2 (wideMag .h (wideOperand .h 0x7BFF#32)) 0x7B ∧ 0x7B ≤ e5m2.cmax := by
  unfold IsLowerCandidate; decide

theorem witness_OverflowFollowsTheClipPolicy :
    e4m3.wf = true ∧ isSpecial .s (wideOperand .s 0x43800000#32) = false ∧
    topMag e4m3 = wideMag .s (wideOperand .s 0x43800000#32) ∧
    isSpecial .h (wideOperand .h 0x5C00#32) = false ∧ topMag e4m3 = wideMag .h (wideOperand .h 0x5C00#32) := by decide

theorem witness_Binary32DenormalsEncodeToZero :
    e4m3.wf = true ∧ isWideDenormal .s (0x807FFFFF#32).toNat = true ∧ isWideDenormal .s (0x00000001#32).toNat = true := by decide

theorem witness_EncodeIsSignSymmetric : e4m3Nzn.wf = true ∧ isSpecial .s (wideOperand .s 0xBA000001#32) = false := by decide

theorem witness_ConditionsAreAbsorbedIntoResults :
    e4m3.wf = true ∧ conditionMet .invalid .s e4m3 .rne 0 0x7F800001 = true ∧
    conditionMet .overflow .s e4m3 .rne 0 0x43780000 = true ∧ conditionMet .underflow .s e4m3 .rne 0 0x3A800001 = true ∧
    conditionMet .inexact .s e4m3 .rne 0 0x3F880000 = true ∧ conditionMet .overflow .h e5m2 .sr 1 0x7BFF = true := by decide

theorem witness_RneEncoderIsNearestEvenWhereDefined :
    (Format.mk 5 2 true).defined = true ∧ 0x3C40 < 2 ^ WideType.width .h ∧ isSpecial .h 0x3C40 = false := by decide

theorem witness_DatapathBounds :
    e5m2Nzn.wf = true ∧ 0x0001 < 2 ^ WideType.width .h ∧ isSpecial .h 0x0001 = false ∧
    (roundIn .h e5m2Nzn .sr 0 0x0001).ediff = -1 ∧ (roundIn .s e4m3 .rne 0 0x3A800000).midpoint = true ∧
    isSpecial .s 0x7F7FFFFF = false := by decide

/-- Above half, below half, and the tie with an even and with an odd retained part. -/
theorem witness_RneUnitRoundsToNearestEven :
    isSpecial .h 0x3C41 = false ∧
    (let u := roundIn .h e4m3 .rne 0 0x3C41; 2 ^ (u.discarded - 1) < u.mantPre % 2 ^ u.discarded) ∧
    (let u := roundIn .h e4m3 .rne 0 0x3C3F; u.mantPre % 2 ^ u.discarded < 2 ^ (u.discarded - 1)) ∧
    (let u := roundIn .h e4m3 .rne 0 0x3C40; u.mantPre % 2 ^ u.discarded = 2 ^ (u.discarded - 1)) ∧
    (let u := roundIn .h e4m3 .rne 0 0x3CC0; u.mantPre % 2 ^ u.discarded = 2 ^ (u.discarded - 1)) ∧
    (roundIn .h e5m2Nzn .rne 0 0x00C0).ediff = -1 := by decide

/-- `ediff` of -1, 0 and 5, and an empty discarded field. -/
theorem witness_SrUnitRoundsUpForExactlyTheField :
    isSpecial .h 0x01FF = false ∧ (roundIn .h e5m2Nzn .sr 0 0x01FF).ediff = -1 ∧ (roundIn .s e4m3 .sr 0 0x3A000001).ediff = 5 ∧
    (roundIn .s e4m3 .sr 0 0x3F800000).mant % 2 ^ (roundIn .s e4m3 .sr 0 0x3F800000).drop = 0 ∧ 0x8000 % 2 ^ 7 = 0 % 2 ^ 7 := by
  decide

/-- The smallest tie of `E4M3`, half its smallest denormal. -/
theorem witness_TieNeverMeetsMantissaZero :
    e4m3.wf = true ∧ 0x1400 < 2 ^ WideType.width .h ∧ isSpecial .h 0x1400 = false ∧
    (roundIn .h e4m3 .rne 0 0x1400).midpoint = true ∧ (roundIn .h e4m3 .rne 0 0x1400).mant = 2 ^ 6 := by decide

theorem witness_ClampedShiftsAgree :
    isSpecial .s 0x00000001 = false ∧ (roundIn .s e4m3 .rne 0 0x00000001).ediff = 120 ∧
    (roundIn .s e4m3 .rne 0 0x3A800000).discarded = 24 := by decide

/-- A NaN, an infinity, both zeros and the largest finite pattern, of both kinds of format. -/
theorem witness_DecodeIsExact :
    isNarrowNaN e4m3 (narrowOperand 0xF9#32) = true ∧ isNarrowNaN e4m3Nzn (narrowOperand 0x80#32) = true ∧
    isNarrowInf e5m2 (narrowOperand 0xFC#32) = true ∧
    (isNarrowNaN e4m3 (narrowOperand 0x80#32) = false ∧ isNarrowInf e4m3 (narrowOperand 0x80#32) = false) ∧
    (isNarrowNaN e5m2Nzn (narrowOperand 0x7F#32) = false ∧ isNarrowInf e5m2Nzn (narrowOperand 0x7F#32) = false) := by decide

theorem witness_EncodeOfDecodedIsIdentity :
    e4m3.wf = true ∧ isNarrowNaN e4m3 (narrowOperand 0xFD#32) = true ∧ isNarrowNaN e4m3 (narrowOperand 0x77#32) = false ∧
    isNarrowNaN e5m2Nzn (narrowOperand 0x80#32) = true := by decide

theorem witness_FastPathEqualsGeneralPath :
    e5m2.wf = true ∧ 0x7B < 256 ∧ takesFastPath .h e5m2 = true ∧ decodeSpecial 0x7C01 .h e5m2 0x7B = none ∧
    decodeSpecial 0x7C01 .h e5m2 0x01 = none := by decide

theorem witness_NormalizationMeetsNoZero :
    e4m3.wf = true ∧ 0x81 < 256 ∧ decodeSpecial 0 .s e4m3 0x81 = none ∧ (narrowFields e4m3 0x81).exponent = 0 ∧
    normShift e4m3 (narrowFields e4m3 0x81).mantissa = 3 ∧ normShift e4m3 (narrowFields e4m3 0x07).mantissa = 1 := by decide

/-- The largest rebiased exponents of R97, and the deepest wide denormal. -/
theorem witness_DecodedFieldsFit :
    decodeSpecial 0 .s e5m2Nzn 0xFF = none ∧
    (rebias .s e5m2Nzn (normalizeNarrow e5m2Nzn (narrowFields e5m2Nzn 0xFF))).exponent = 142 ∧
    (rebias .h e4m3 (normalizeNarrow e4m3 (narrowFields e4m3 0x77))).exponent = 22 ∧
    (rebias .h e5m2Nzn (normalizeNarrow e5m2Nzn (narrowFields e5m2Nzn 0x7F))).exponent = 30 ∧
    (rebias .h e5m2Nzn (normalizeNarrow e5m2Nzn (narrowFields e5m2Nzn 0x01))).exponent = -2 := by decide

/-- Both ends of each range of patterns. -/
theorem witness_WhichDecodedValuesAreDenormal :
    e5m2.wf = true ∧ e5m2Nzn.wf = true ∧ narrowOperand 0x81#32 % 128 = 1 ∧ narrowOperand 0x03#32 % 128 = 3 ∧
    narrowOperand 0x87#32 % 128 = 7 ∧ narrowOperand 0x88#32 % 128 = 8 := by decide

theorem witness_NarrowDenormalsDecodeToNormalsExceptE5M2Nzn :
    e5m2.wf = true ∧
    exec (Instr.dec .h e5m2) (ports 0#16 0x01#32 0#32) = .next ((ports 0#16 0x01#32 0#32).setDst 0x0100#32) ∧
    (narrowFields e5m2 (narrowOperand 0x01#32)).exponent = 0 ∧ (narrowFields e5m2 (narrowOperand 0x01#32)).mantissa ≠ 0 ∧
    ¬(WideType.h = .h ∧ e5m2 = e5m2Nzn) :=
  ⟨by decide, rfl, by decide, by decide, by decide⟩

theorem witness_DecoderIsExactWhereDefined :
    (Format.mk 6 1 true).defined = true ∧ isNarrowNaN (Format.mk 6 1 true) 0x80 = true ∧
    isNarrowInf (Format.mk 4 3 false) 0xF0 = true ∧
    (isNarrowNaN (Format.mk 5 2 true) 0x01 = false ∧ isNarrowInf (Format.mk 5 2 true) 0x01 = false) := by decide

/-- It is enough to look at the finitely many elements. -/
theorem isNearestEven_of_list {f : Format} {v c : Nat} (hc : c ≤ f.cmax + 1) (he : c % 2 = 0)
    (h : ∀ d ∈ List.range (f.cmax + 2), distance v (narrowMag f c) ≤ distance v (narrowMag f d)) : IsNearestEven f v c :=
  ⟨hc, fun d hd => ⟨h d (List.mem_range.2 (by omega)), fun _ _ => he⟩⟩

/-- The source's tie 1.0625, whose nearest even pattern in `E4M3` is `0x38`; the zero of either sign; and the overflow
threshold -248 of S4, nearest even to `cmax + 1`. -/
theorem witness_QuantizeDequantizeIsNearest :
    e4m3.wf = true ∧
    (isSpecial .h (wideOperand .h 0x3C40#32) = false ∧ IsNearestEven e4m3 (wideMag .h (wideOperand .h 0x3C40#32)) 0x38) ∧
    (isSpecial .h (wideOperand .h 0x8000#32) = false ∧ IsNearestEven e4m3 (wideMag .h (wideOperand .h 0x8000#32)) 0) ∧
    (isSpecial .s (wideOperand .s 0xC3780000#32) = false ∧
      IsNearestEven e4m3 (wideMag .s (wideOperand .s 0xC3780000#32)) (e4m3.cmax + 1)) :=
  ⟨by decide, ⟨by decide, isNearestEven_of_list (by decide) (by decide) (by decide +kernel)⟩,
    ⟨by decide, isNearestEven_of_list (by decide) (by decide) (by decide +kernel)⟩,
    ⟨by decide, isNearestEven_of_list (by decide) (by decide) (by decide +kernel)⟩⟩

/-- 1.03125 between `0x38` and `0x39`; just below 248, where a carry overflows; and `top` itself. -/
theorem witness_QuantizeDequantizeSrTakesABracketingCandidate :
    e4m3.wf = true ∧
    (isSpecial .h (wideOperand .h 0x3C20#32) = false ∧ IsLowerCandidate e4m3 (wideMag .h (wideOperand .h 0x3C20#32)) 0x38) ∧
    (isSpecial .s (wideOperand .s 0x4377FFFF#32) = false ∧
      IsLowerCandidate e4m3 (wideMag .s (wideOperand .s 0x4377FFFF#32)) e4m3.cmax ∧
      stochasticChoice e4m3 (dropWidth .s e4m3) (wideMag .s (wideOperand .s 0x4377FFFF#32)) 0xFFFFFFFF e4m3.cmax =
        e4m3.cmax + 1) ∧
    (isSpecial .s (wideOperand .s 0x43800000#32) = false ∧
      IsLowerCandidate e4m3 (wideMag .s (wideOperand .s 0x43800000#32)) (e4m3.cmax + 1)) := by
  unfold IsLowerCandidate; decide +kernel

/-- An infinity and a NaN of each wide type. -/
theorem witness_QuantizeDequantizeOfSpecialInputs :
    e4m3Nzn.wf = true ∧ isSpecial .s (wideOperand .s 0xFF800000#32) = true ∧ isSpecial .s (wideOperand .s 0x7FC00000#32) = true ∧
    isSpecial .h (wideOperand .h 0xFC00#32) = true ∧ isSpecial .h (wideOperand .h 0x7E01#32) = true := by decide

end Sys2Proof.Tests
end

section
/-! PROOFS. The defined formats of 00_scope.md R9, and the magnitudes of consecutive narrow patterns. -/

namespace Sys2Proof

theorem Format.defined_iff (f : Format) : f.defined = true ↔ f.wm + f.we = 7 ∧ 2 ≤ f.wm ∧ f.wm ≤ 6 := by
  simp only [Format.defined, Config.definedFormats, List.contains_eq_mem, List.mem_cons, Prod.mk.injEq,
    List.not_mem_nil, or_false, decide_eq_true_eq]
  omega

/-- The rows of the table of R9. -/
theorem Format.defined_cases {f : Format} (h : f.defined = true) :
    ∃ nzn, f = ⟨6, 1, nzn⟩ ∨ f = ⟨5, 2, nzn⟩ ∨ f = ⟨4, 3, nzn⟩ ∨ f = ⟨3, 4, nzn⟩ ∨ f = ⟨2, 5, nzn⟩ := by
  obtain ⟨hsum, hlo, hhi⟩ := (Format.defined_iff f).1 h
  obtain ⟨wm, we, nzn⟩ := f
  refine ⟨nzn, ?_⟩
  simp only [Format.mk.injEq, and_true] at hsum hlo hhi ⊢
  omega

theorem Format.defined_of_wf {f : Format} (h : f.wf = true) : f.defined = true := by
  rcases (Format.wf_iff f).1 h with rfl | rfl | rfl | rfl <;> rfl

/-- The bias is small beside the widths: what keeps the exponents of both converters in range. -/
theorem Format.bias_add_wm_le {f : Format} (h : f.defined = true) : f.bias + 2 * f.wm ≤ 20 := by
  obtain ⟨nzn, rfl | rfl | rfl | rfl | rfl⟩ := Format.defined_cases h <;> cases nzn <;> decide

/-- The largest exponent field is within 15 of the bias, which both wide types have room for. -/
theorem Format.maxExp_le {f : Format} (h : f.defined = true) : f.maxExp ≤ f.bias + 15 := by
  obtain ⟨nzn, rfl | rfl | rfl | rfl | rfl⟩ := Format.defined_cases h <;> cases nzn <;> decide

theorem Format.cmax_add_one (f : Format) : f.cmax + 1 = (f.maxExp + 1) * 2 ^ f.wm := by
  have hpos : 0 < 2 ^ f.wm := Nat.two_pow_pos _
  rw [Format.cmax, ← Nat.shiftLeft_add_eq_or_of_lt (by omega), Nat.shiftLeft_eq, Nat.succ_mul]
  omega

namespace Machine

/-- The pattern with exponent field `k + 1` and significand `j`, counted from `0` for denormals too: its magnitude is `j` ulps.
`j = 2 * 2^wm` is the carry into the next exponent. -/
theorem narrowMag_of_significand (f : Format) {k j : Nat} (hk : k = 0 ∨ 2 ^ f.wm ≤ j) (hj : j ≤ 2 * 2 ^ f.wm) :
    narrowMag f (k * 2 ^ f.wm + j) = j * 2 ^ k * 2 ^ (150 - f.bias - f.wm) := by
  have hpos : 0 < 2 ^ f.wm := Nat.two_pow_pos _
  rw [narrowMag, Nat.shiftRight_eq_div_pow]
  congr 1
  generalize 2 ^ f.wm = W at *
  rcases Nat.lt_or_ge j W with hden | hnorm
  · obtain rfl : k = 0 := by omega
    simp [Nat.div_eq_of_lt hden, Nat.mod_eq_of_lt hden]
  rcases Nat.lt_or_ge j (2 * W) with hlt | hge
  · obtain ⟨m, rfl⟩ := Nat.exists_eq_add_of_le hnorm
    have hm : m < W := by omega
    rw [show k * W + (W + m) = W * (k + 1) + m by ring, Nat.mul_add_div hpos, Nat.div_eq_of_lt hm, Nat.mul_add_mod,
      Nat.mod_eq_of_lt hm]
    simp
  · obtain rfl : j = 2 * W := by omega
    rw [show k * W + 2 * W = W * (k + 2) by ring, Nat.mul_div_cancel_left _ hpos, Nat.mul_mod_right]
    simp [pow_succ]; ring

/-- Every pattern has an exponent and a significand below the carry. -/
theorem exists_significand (f : Format) (c : Nat) :
    ∃ k j, c = k * 2 ^ f.wm + j ∧ (k = 0 ∨ 2 ^ f.wm ≤ j) ∧ j < 2 * 2 ^ f.wm := by
  have hpos : 0 < 2 ^ f.wm := Nat.two_pow_pos _
  have hmod : c % 2 ^ f.wm < 2 ^ f.wm := Nat.mod_lt _ hpos
  have hdiv := Nat.div_add_mod' c (2 ^ f.wm)
  cases hk : c / 2 ^ f.wm with
  | zero => exact ⟨0, c, by omega, .inl rfl, by simp [hk] at hdiv; omega⟩
  | succ k =>
    refine ⟨k, 2 ^ f.wm + c % 2 ^ f.wm, ?_, .inr (by omega), by omega⟩
    rw [hk, Nat.succ_mul] at hdiv
    omega

theorem narrowMag_strictMono (f : Format) : StrictMono (narrowMag f) := by
  refine strictMono_nat_of_lt_succ fun c => ?_
  obtain ⟨k, j, rfl, hk, hj⟩ := exists_significand f c
  rw [add_assoc, narrowMag_of_significand f hk (by omega), narrowMag_of_significand f (by omega) (by omega), mul_assoc, mul_assoc]
  exact Nat.mul_lt_mul_of_pos_right (Nat.lt_succ_self j) (by positivity)

theorem narrowMag_zero (f : Format) : narrowMag f 0 = 0 := by simp [narrowMag]

end Machine

end Sys2Proof
end

section
/-! PROOFS. Nearest, ties to even (41_encoder.md R80), by the midpoints of neighbouring patterns. -/

namespace Sys2Proof.Machine

/-- `c` is an element of `{0, ..., cmax + 1}` and `v` lies between the midpoints of `c` with its neighbours, on one of them only if
`c` is even. -/
def BetweenMidpoints (f : Format) (v c : Nat) : Prop :=
  c ≤ f.cmax + 1 ∧
  (∀ b, b + 1 = c → narrowMag f b + narrowMag f c ≤ 2 * v ∧ (narrowMag f b + narrowMag f c = 2 * v → c % 2 = 0)) ∧
  (c ≤ f.cmax → 2 * v ≤ narrowMag f c + narrowMag f (c + 1) ∧ (2 * v = narrowMag f c + narrowMag f (c + 1) → c % 2 = 0))

/-- Any other element is at least as far away, and one as far away is a neighbour on the other side of an even `c`. -/
theorem BetweenMidpoints.distance_le {f : Format} {v c d : Nat} (h : BetweenMidpoints f v c) (hd : d ≤ f.cmax + 1) (hne : d ≠ c) :
    distance v (narrowMag f c) ≤ distance v (narrowMag f d) ∧
    (distance v (narrowMag f d) = distance v (narrowMag f c) → c % 2 = 0 ∧ d % 2 = 1) := by
  obtain ⟨hc, hlow, hhigh⟩ := h
  have hmono := narrowMag_strictMono f
  unfold distance
  rcases Nat.lt_or_gt_of_ne hne with hlt | hgt
  · obtain ⟨b, rfl⟩ : ∃ b, c = b + 1 := ⟨c - 1, by omega⟩
    obtain ⟨hmid, hpar⟩ := hlow b rfl
    have hb : d = b ∨ narrowMag f d < narrowMag f b := by
      rcases Nat.lt_or_ge d b with h | h
      · exact .inr (hmono h)
      · exact .inl (by omega)
    have hdc := hmono hlt
    rcases hb with rfl | hb <;> omega
  · obtain ⟨hmid, hpar⟩ := hhigh (by omega)
    have hb : d = c + 1 ∨ narrowMag f (c + 1) < narrowMag f d := by
      rcases Nat.lt_or_ge (c + 1) d with h | h
      · exact .inr (hmono h)
      · exact .inl (by omega)
    have hdc := hmono hgt
    rcases hb with rfl | hb <;> omega

/-- The element between its midpoints is the one nearest element, even on a tie. -/
theorem BetweenMidpoints.isNearestEven_iff {f : Format} {v c : Nat} (h : BetweenMidpoints f v c) (d : Nat) :
    IsNearestEven f v d ↔ d = c := by
  constructor
  · rintro ⟨hd, hnear⟩
    by_contra hne
    obtain ⟨hle, htie⟩ := h.distance_le hd hne
    obtain ⟨hge, heven⟩ := hnear c h.1
    have heq := Nat.le_antisymm hge hle
    have := heven (Ne.symm hne) heq.symm
    have := htie heq
    omega
  · rintro rfl
    refine ⟨h.1, fun e he => ?_⟩
    by_cases hne : e = d
    · subst hne; exact ⟨le_rfl, fun h => absurd rfl h⟩
    · obtain ⟨hle, htie⟩ := h.distance_le he hne
      exact ⟨hle, fun _ heq => (htie heq).1⟩

/-- At or above `top` the nearest element is `cmax + 1`. -/
theorem betweenMidpoints_top {f : Format} {v : Nat} (h : narrowMag f (f.cmax + 1) ≤ v) : BetweenMidpoints f v (f.cmax + 1) := by
  refine ⟨le_rfl, fun b hb => ?_, fun h => by omega⟩
  have := narrowMag_strictMono f (show b < f.cmax + 1 by omega)
  omega

/-- From the lower candidate `c` of all patterns, below or on its midpoint. -/
theorem betweenMidpoints_of_roundDown {f : Format} {v c : Nat} (hlo : narrowMag f c ≤ v)
    (hmid : 2 * v ≤ narrowMag f c + narrowMag f (c + 1)) (htie : 2 * v = narrowMag f c + narrowMag f (c + 1) → c % 2 = 0) :
    BetweenMidpoints f v (min c (f.cmax + 1)) := by
  have hmono := narrowMag_strictMono f
  rcases Nat.lt_or_ge f.cmax c with htop | hin
  · rw [min_eq_right htop]
    exact betweenMidpoints_top ((hmono.monotone htop).trans hlo)
  · rw [min_eq_left (by omega)]
    refine ⟨by omega, fun b hb => ?_, fun _ => ⟨hmid, htie⟩⟩
    have := hmono (show b < c by omega)
    omega

/-- From the lower candidate `c` of all patterns, above or on its midpoint. -/
theorem betweenMidpoints_of_roundUp {f : Format} {v c : Nat} (hlo : narrowMag f c ≤ v) (hhi : v < narrowMag f (c + 1))
    (hmid : narrowMag f c + narrowMag f (c + 1) ≤ 2 * v) (htie : narrowMag f c + narrowMag f (c + 1) = 2 * v → c % 2 = 1) :
    BetweenMidpoints f v (min (c + 1) (f.cmax + 1)) := by
  have hmono := narrowMag_strictMono f
  rcases Nat.lt_or_ge f.cmax c with htop | hin
  · rw [min_eq_right (by omega)]
    exact betweenMidpoints_top ((hmono.monotone htop).trans hlo)
  · rw [min_eq_left (by omega)]
    refine ⟨by omega, fun b hb => ?_, fun _ => ?_⟩
    · obtain rfl : b = c := by omega
      exact ⟨hmid, fun h => by have := htie h; omega⟩
    · have := hmono (show c + 1 < c + 1 + 1 by omega)
      omega

end Sys2Proof.Machine
end

section
/-! PROOFS. The rounding unit (42_rounding.md R82 to R87): what is retained of the mantissa before the shift. -/

namespace Sys2Proof.Machine

/-- The part of the mantissa before the shift that is retained (R86). -/
def RoundIn.quotient (u : RoundIn) : Nat := u.mantPre / 2 ^ u.discarded

/-- The part of the mantissa before the shift that is discarded (R86). -/
def RoundIn.remainder (u : RoundIn) : Nat := u.mantPre % 2 ^ u.discarded

section Unit
variable {u : RoundIn}

/-- The condition under which the unit is used: the mantissa is the aligned one of 41_encoder.md R69, and at least two bits are
dropped. -/
structure RoundIn.Aligned (u : RoundIn) : Prop where
  mant_eq : u.mant = alignMant u.mantPre u.ediff
  neg_one_le_ediff : -1 ≤ u.ediff
  two_le_drop : 2 ≤ u.drop

/-- The two kinds of alignment: `ediff` bits shifted out, or one bit shifted in. -/
theorem RoundIn.Aligned.cases (h : u.Aligned) :
    (∃ e : Nat, u.ediff = e ∧ u.discarded = u.drop + e ∧ u.mant = u.mantPre / 2 ^ e) ∨
    (u.ediff = -1 ∧ u.drop = u.discarded + 1 ∧ u.mant = 2 * u.mantPre) := by
  obtain ⟨hmant, hediff, hdrop⟩ := h
  rw [alignMant, Nat.shiftRight_eq_div_pow] at hmant
  unfold RoundIn.discarded
  rcases lt_trichotomy u.ediff 0 with hneg | hzero | hpos
  · have he : u.ediff = -1 := by omega
    rw [if_neg (by omega), if_pos he, Nat.shiftLeft_eq] at hmant
    exact .inr ⟨he, by omega, by omega⟩
  · rw [if_neg (by omega), if_neg (by omega)] at hmant
    exact .inl ⟨0, hzero, by omega, by simpa using hmant⟩
  · rw [if_pos hpos] at hmant
    exact .inl ⟨u.ediff.toNat, by omega, by omega, hmant⟩

theorem RoundIn.Aligned.discarded_pos (h : u.Aligned) : 1 ≤ u.discarded := by
  have := h.two_le_drop
  rcases h.cases with ⟨e, -, hD, -⟩ | ⟨-, hD, -⟩ <;> omega

theorem RoundIn.Aligned.two_pow_drop (h : u.Aligned) : 2 ^ u.drop = 2 * 2 ^ (u.drop - 1) := by
  have := h.two_le_drop
  rw [← pow_succ', Nat.sub_add_cancel (by omega)]

theorem RoundIn.Aligned.two_pow_discarded (h : u.Aligned) : 2 ^ u.discarded = 2 * 2 ^ (u.discarded - 1) := by
  rw [← pow_succ', Nat.sub_add_cancel h.discarded_pos]

/-- The part retained is the same before and after the alignment. -/
theorem RoundIn.Aligned.mant_div (h : u.Aligned) : u.mant / 2 ^ u.drop = u.quotient := by
  rw [RoundIn.quotient]
  rcases h.cases with ⟨e, -, hD, hm⟩ | ⟨-, hD, hm⟩
  · rw [hm, hD, Nat.div_div_eq_div_mul, ← pow_add, add_comm]
  · rw [hm, hD, pow_succ', Nat.mul_div_mul_left _ _ two_pos]

/-- The discarded field of the aligned mantissa, from the discarded bits before the alignment. -/
theorem RoundIn.Aligned.mant_mod (h : u.Aligned) :
    u.mant % 2 ^ u.drop = if u.ediff = -1 then 2 * u.remainder
      else u.remainder / 2 ^ u.ediff.toNat := by
  rw [RoundIn.remainder]
  rcases h.cases with ⟨e, he, hD, hm⟩ | ⟨he, hD, hm⟩
  · rw [if_neg (by omega), he, Int.toNat_natCast, hm, hD, ← Nat.mod_mul_right_div_self, ← pow_add, add_comm]
  · rw [if_pos he, hm, hD, pow_succ', Nat.mul_mod_mul_left]

/-- The discarded field reaches its half exactly when the discarded bits reach theirs. -/
theorem RoundIn.Aligned.half_le_mant_mod_iff (h : u.Aligned) :
    2 ^ (u.drop - 1) ≤ u.mant % 2 ^ u.drop ↔ 2 ^ (u.discarded - 1) ≤ u.remainder := by
  have hdrop := h.two_le_drop
  rw [h.mant_mod]
  rcases h.cases with ⟨e, he, hD, -⟩ | ⟨he, hD, -⟩
  · rw [if_neg (by omega), he, Int.toNat_natCast, Nat.le_div_iff_mul_le (Nat.two_pow_pos e), ← pow_add,
      show u.drop - 1 + e = u.discarded - 1 by omega]
  · rw [if_pos he, show u.drop - 1 = u.discarded - 1 + 1 by omega, pow_succ']
    omega

/-- At a tie the discarded field is its half: the 1 of the midpoint survives the alignment (R88). -/
theorem RoundIn.Aligned.mant_mod_of_tie (h : u.Aligned) (htie : u.remainder = 2 ^ (u.discarded - 1)) :
    u.mant % 2 ^ u.drop = 2 ^ (u.drop - 1) := by
  have hdrop := h.two_le_drop
  rw [h.mant_mod, htie]
  rcases h.cases with ⟨e, he, hD, -⟩ | ⟨he, hD, -⟩
  · rw [if_neg (by omega), he, Int.toNat_natCast, show u.discarded - 1 = u.drop - 1 + e by omega, pow_add,
      Nat.mul_div_cancel _ (Nat.two_pow_pos e)]
  · rw [if_pos he, ← pow_succ']
    congr 1
    omega

/-- The retained part is that of the mantissa, plus the carry of the discarded field and the addend. -/
theorem RoundIn.retained_eq (u : RoundIn) :
    u.retained = u.mant / 2 ^ u.drop + (u.mant % 2 ^ u.drop + u.addend) / 2 ^ u.drop := by
  have hsum : u.sum = 2 ^ u.drop * (u.mant / 2 ^ u.drop) + (u.mant % 2 ^ u.drop + u.addend) := by
    rw [← add_assoc, Nat.div_add_mod, RoundIn.sum]
  rw [RoundIn.retained, Nat.shiftRight_eq_div_pow, hsum, Nat.mul_add_div (Nat.two_pow_pos _)]

theorem RoundIn.addend_lt (u : RoundIn) : u.addend < 2 ^ u.drop := by
  have hmask (v : Nat) : v &&& (2 ^ u.drop - 1) < 2 ^ u.drop := by
    rw [Nat.and_two_pow_sub_one_eq_mod]; exact Nat.mod_lt _ (Nat.two_pow_pos _)
  unfold RoundIn.addend
  split
  · exact hmask _
  · split <;> exact hmask _

/-- In either rounding mode one of the two candidates is taken. -/
theorem RoundIn.retained_mem (u : RoundIn) :
    u.mant / 2 ^ u.drop ≤ u.retained ∧ u.retained ≤ u.mant / 2 ^ u.drop + 1 := by
  have hfield : u.mant % 2 ^ u.drop < 2 ^ u.drop := Nat.mod_lt _ (Nat.two_pow_pos _)
  have hcarry : (u.mant % 2 ^ u.drop + u.addend) / 2 ^ u.drop < 2 :=
    Nat.div_lt_of_lt_mul (by have := u.addend_lt; omega)
  rw [u.retained_eq]
  exact ⟨Nat.le_add_right _ _, Nat.add_le_add_left (Nat.le_of_lt_succ hcarry) _⟩

/-- Away from a tie the addend is the discarded field itself (R83). -/
theorem RoundIn.addend_of_not_tie (hrm : u.rm = .rne) (htie : u.remainder ≠ 2 ^ (u.discarded - 1)) :
    u.addend = u.mant % 2 ^ u.drop := by
  have hmid : u.midpoint = false := by simpa [RoundIn.midpoint, RoundIn.remainder] using htie
  simp [RoundIn.addend, hrm, hmid, Nat.and_two_pow_sub_one_eq_mod]

/-- At a tie the addend is half the field when the retained part is odd, and just less when it is even (R83). -/
theorem RoundIn.Aligned.addend_of_tie (h : u.Aligned) (hrm : u.rm = .rne)
    (htie : u.remainder = 2 ^ (u.discarded - 1)) :
    u.addend = 2 ^ (u.drop - 1) - 1 + u.mant / 2 ^ u.drop % 2 := by
  have hmid : u.midpoint = true := by simpa [RoundIn.midpoint, RoundIn.remainder] using htie
  have hfield := h.mant_mod_of_tie htie
  have hpos : 0 < 2 ^ (u.drop - 1) := Nat.two_pow_pos _
  simp only [RoundIn.addend, hrm, hmid, if_true, RoundIn.odd, bit, Nat.shiftRight_eq_div_pow, beq_iff_eq,
    Nat.and_two_pow_sub_one_eq_mod]
  split
  · omega
  · have hlt : 2 ^ (u.drop - 1) - 1 < 2 ^ u.drop := by
      have := Nat.pow_le_pow_right two_pos (Nat.sub_le u.drop 1)
      omega
    have hmant := Nat.div_add_mod u.mant (2 ^ u.drop)
    rw [show u.mant - 1 = 2 ^ u.drop * (u.mant / 2 ^ u.drop) + (2 ^ (u.drop - 1) - 1) by omega, Nat.mul_add_mod,
      Nat.mod_eq_of_lt hlt]
    omega

/-- Above half the upper candidate is taken. -/
theorem RoundIn.Aligned.retained_above_half (h : u.Aligned) (hrm : u.rm = .rne)
    (habove : 2 ^ (u.discarded - 1) < u.remainder) : u.retained = u.quotient + 1 := by
  have hhalf := h.half_le_mant_mod_iff.2 habove.le
  have hdouble := h.two_pow_drop
  rw [u.retained_eq, h.mant_div, RoundIn.addend_of_not_tie hrm habove.ne']
  congr 1
  have hlt : u.mant % 2 ^ u.drop < 2 ^ u.drop := Nat.mod_lt _ (Nat.two_pow_pos _)
  exact Nat.div_eq_of_lt_le (by omega) (by omega)

/-- Below half the lower candidate is taken. -/
theorem RoundIn.Aligned.retained_below_half (h : u.Aligned) (hrm : u.rm = .rne)
    (hbelow : u.remainder < 2 ^ (u.discarded - 1)) : u.retained = u.quotient := by
  have hhalf := mt h.half_le_mant_mod_iff.1 hbelow.not_ge
  have hdouble := h.two_pow_drop
  rw [u.retained_eq, h.mant_div, RoundIn.addend_of_not_tie hrm hbelow.ne]
  exact Nat.add_eq_left.2 (Nat.div_eq_of_lt (by omega))

/-- At a tie the even candidate is taken. -/
theorem RoundIn.Aligned.retained_of_tie (h : u.Aligned) (hrm : u.rm = .rne)
    (htie : u.remainder = 2 ^ (u.discarded - 1)) :
    u.retained = u.quotient + u.quotient % 2 := by
  have hpos : 0 < 2 ^ (u.drop - 1) := Nat.two_pow_pos _
  have hdouble := h.two_pow_drop
  rw [u.retained_eq, h.addend_of_tie hrm htie, h.mant_mod_of_tie htie, h.mant_div]
  congr 1
  rcases Nat.mod_two_eq_zero_or_one (u.quotient) with heven | hodd
  · rw [heven, Nat.div_eq_of_lt (by omega)]
  · rw [hodd, Nat.div_eq_of_lt_le] <;> omega

end Unit

end Sys2Proof.Machine
end

section
/-! PROOFS. The end of the encoder (42_rounding.md R85, 41_encoder.md R72 to R75): the narrow pattern of the unit's output. -/

namespace Sys2Proof.Machine

/-- The positive narrow pattern that exponent and dropped mantissa make (R75), whether or not it is beyond `cmax`. -/
def RoundOut.code (o : RoundOut) (f : Format) (drop : Nat) : Nat :=
  o.f8Exp.toNat * 2 ^ f.wm + (o.mant >>> drop) % 2 ^ f.wm

/-- An exponent field is not negative, and field 0 means that no leading 1 is there. -/
def RoundOut.Normal (o : RoundOut) (f : Format) (drop : Nat) : Prop :=
  0 ≤ o.f8Exp ∧ (o.f8Exp = 0 → o.mant >>> drop < 2 ^ f.wm)

theorem bit_eq_retained_bit (u : RoundIn) (i : Nat) : bit u.sum (u.drop + i) = u.retained / 2 ^ i % 2 := by
  rw [bit, RoundIn.retained, Nat.shiftRight_add, Nat.shiftRight_eq_div_pow _ i]

/-- After the carry is propagated the pattern counts `retained` ulps up from the start of the binade `k`, the denormals and the
first normal binade being both counted from 0. -/
theorem RoundIn.out_code {u : RoundIn} {f : Format} {k : Nat} (hwm : u.mfmt = u.drop + f.wm)
    (hcase : (u.f8Exp = 0 ∧ k = 0 ∧ u.retained ≤ 2 ^ f.wm) ∨
      (u.f8Exp = k + 1 ∧ 2 ^ f.wm ≤ u.retained ∧ u.retained ≤ 2 * 2 ^ f.wm)) :
    u.out.Normal f u.drop ∧ u.out.code f u.drop = k * 2 ^ f.wm + u.retained := by
  have hpos : 0 < 2 ^ f.wm := Nat.two_pow_pos _
  have hret : u.sum >>> u.drop = u.retained := rfl
  have hshift : u.sum >>> 1 >>> u.drop = u.retained / 2 := by
    rw [← Nat.shiftRight_add, add_comm, Nat.shiftRight_add, hret, Nat.shiftRight_eq_div_pow, pow_one]
  rw [RoundIn.out, propagateCarry, hwm, add_assoc, bit_eq_retained_bit, bit_eq_retained_bit]
  rcases hcase with ⟨hE, rfl, hle⟩ | ⟨hE, hge, hle⟩
  · rw [if_pos hE]
    rcases Nat.eq_or_lt_of_le hle with heq | hlt
    · rw [heq, Nat.div_self hpos, if_pos rfl]
      exact ⟨⟨by simp, by simp⟩, by simp [RoundOut.code, hret, heq]⟩
    · rw [Nat.div_eq_of_lt hlt, if_neg (by decide)]
      exact ⟨⟨by simp [hE], fun _ => hlt⟩, by simp [RoundOut.code, hret, hE, Nat.mod_eq_of_lt hlt]⟩
  · have hEne : ¬ u.f8Exp = 0 := by omega
    rw [if_neg hEne, pow_succ']
    rcases Nat.eq_or_lt_of_le hle with heq | hlt
    · rw [heq, Nat.div_self (by omega), if_pos rfl]
      refine ⟨⟨by simp only; omega, by simp only; omega⟩, ?_⟩
      rw [RoundOut.code]
      simp only [hshift, heq, hE, Nat.mul_div_cancel_left _ two_pos, Nat.mod_self]
      rw [show ((k : Int) + 1 + 1).toNat = k + 2 by omega]
      ring
    · rw [Nat.div_eq_of_lt hlt, if_neg (by decide)]
      refine ⟨⟨by simp only; omega, by simp only; omega⟩, ?_⟩
      rw [RoundOut.code]
      simp only [hret, hE]
      rw [show ((k : Int) + 1).toNat = k + 1 by omega, Nat.mod_eq_sub_mod hge, Nat.mod_eq_of_lt (by omega), Nat.succ_mul]
      omega

/-- The clipped overflow is packed to the largest finite pattern (R73). -/
theorem packNarrow_cmax (f : Format) (hwm : f.wm ≠ 0) (sign : Nat) :
    packNarrow f sign f.maxExp (2 ^ f.wm - 1) = sign <<< 7 ||| f.cmax := by
  have htwo : 2 ≤ 2 ^ f.wm := Nat.le_self_pow hwm 2
  rw [packNarrow, if_neg (by omega), Nat.and_self, Nat.or_assoc, Int.toNat_natCast, Format.cmax]

/-- Clamp, zero collapse and packing (R73 to R75) are the case table of R80 for that pattern, cut at `cmax + 1`. -/
theorem finish_eq_roundedPattern {f : Format} {o : RoundOut} {drop : Nat} (hn : o.Normal f drop) (clip : Bool) (sign : Nat)
    (hwm : f.wm ≠ 0) :
    finish f clip drop sign o = roundedPattern f clip sign (min (o.code f drop) (f.cmax + 1)) := by
  obtain ⟨hnonneg, hden⟩ := hn
  have hpos : 0 < 2 ^ f.wm := Nat.two_pow_pos _
  have hlow : (o.mant >>> drop) % 2 ^ f.wm < 2 ^ f.wm := Nat.mod_lt _ hpos
  have htop := f.cmax_add_one
  rw [finish, overflows]
  by_cases hover : (f.maxExp : Int) < o.f8Exp
  · have hcode : f.cmax + 1 ≤ o.code f drop := by
      have := Nat.mul_le_mul_right (2 ^ f.wm) (show f.maxExp + 1 ≤ o.f8Exp.toNat by omega)
      rw [RoundOut.code]; omega
    rw [min_eq_right hcode, roundedPattern, if_pos rfl, if_pos (by simpa using hover),
      packNarrow_cmax f hwm]
  · have hcode : o.code f drop < f.cmax + 1 := by
      have := Nat.mul_le_mul_right (2 ^ f.wm) (show o.f8Exp.toNat + 1 ≤ f.maxExp + 1 by omega)
      rw [Nat.succ_mul] at this
      rw [RoundOut.code]; omega
    have hzero : (o.f8Exp = 0 ∧ o.mant >>> drop = 0) ↔ o.code f drop = 0 := by
      rw [RoundOut.code, Nat.add_eq_zero_iff, Nat.mul_eq_zero]
      constructor
      · rintro ⟨hE, hm⟩; simp [hE, hm]
      · rintro ⟨hE, hm⟩
        have hE : o.f8Exp = 0 := by omega
        exact ⟨hE, by rwa [Nat.mod_eq_of_lt (hden hE)] at hm⟩
    rw [min_eq_left hcode.le, roundedPattern, if_neg hcode.ne, if_neg (by simpa using hover), packNarrow]
    simp only [hzero]
    split
    · rfl
    · rw [Nat.or_assoc, Nat.and_two_pow_sub_one_eq_mod, ← Nat.shiftLeft_add_eq_or_of_lt hlow,
        Nat.shiftLeft_eq _ f.wm, RoundOut.code]

end Sys2Proof.Machine
end

section
/-! PROOFS. The encoder's scaling (41_encoder.md R66 to R70) and its result against the magnitude of the input. -/

namespace Sys2Proof.Machine

theorem decompose_mantissa_lt (T : WideType) (x : Nat) : (decompose T x).mantissa < 2 ^ T.mfmt := by
  cases T <;> exact Nat.mod_lt _ (by decide)

/-- Step 4's signals of an input (R66, R67). -/
def scaleOf (T : WideType) (f : Format) (x : Nat) : Scaled := scale T f (decompose T x)

section Scale
variable (T : WideType) (f : Format) (x : Nat)

/-- The magnitude of an input is its mantissa before the shift, at the weight of its true exponent. -/
theorem wideMag_eq_mantPre :
    wideMag T x = (scaleOf T f x).mantPre * 2 ^ ((scaleOf T f x).act + 149 - T.mfmt).toNat := by
  have hT : T.wbias + T.mfmt ≤ 150 := by cases T <;> decide
  rw [wideMag, scaleOf, scale]
  split
  · congr 2; simp only; omega
  · rw [mul_assoc, ← pow_add, add_comm (decompose T x).mantissa]
    congr 2; simp only; omega

theorem scale_mantPre_lt : (scaleOf T f x).mantPre < 2 ^ (T.mfmt + 1) := by
  have hm := decompose_mantissa_lt T x
  rw [scaleOf, scale, pow_succ]
  split <;> simp only <;> omega

theorem one_sub_wbias_le_scale_act : 1 - (T.wbias : Int) ≤ (scaleOf T f x).act := by
  rw [scaleOf, scale]
  split <;> simp only <;> omega

/-- The exponent after the alignment is that of a narrow denormal, or it is above and there is nothing to align. -/
theorem scale_aligned_exponent :
    (scaleOf T f x).act + (scaleOf T f x).ediff = f.den ∨
    (f.den < (scaleOf T f x).act ∧ (scaleOf T f x).ediff = 0 ∧
      2 ^ T.mfmt ≤ (scaleOf T f x).mantPre) := by
  rw [scaleOf, scale]
  split
  · simp only; omega
  · simp only; split <;> omega

variable {f}

theorem neg_one_le_scale_ediff (h : f.defined = true) : -1 ≤ (scaleOf T f x).ediff := by
  have hb := Format.bias_add_wm_le h
  have hwm := ((Format.defined_iff f).1 h).2.1
  have hT : 15 ≤ T.wbias := by cases T <;> decide
  rw [scaleOf, scale]
  unfold Format.den
  split
  · simp only; omega
  · simp only; split <;> omega

/-- The one left shift of R69 is of a binary16 denormal, which has no leading 1. -/
theorem scale_mantPre_lt_of_ediff_neg (h : (scaleOf T f x).ediff < 0) :
    (scaleOf T f x).mantPre < 2 ^ T.mfmt := by
  have hm := decompose_mantissa_lt T x
  rw [scaleOf, scale] at h ⊢
  split
  · exact hm
  · rename_i hne
    rw [if_neg hne] at h
    simp only at h
    split at h <;> omega

end Scale

theorem dropWidth_add_wm {f : Format} (h : f.defined = true) (T : WideType) : T.mfmt = dropWidth T f + f.wm := by
  have hwm := ((Format.defined_iff f).1 h).2.2
  have hT : 10 ≤ T.mfmt := by cases T <;> decide
  unfold dropWidth
  omega

theorem roundIn_aligned {f : Format} (h : f.defined = true) (T : WideType) (rm : RoundMode) (rng x : Nat) :
    (roundIn T f rm rng x).Aligned where
  mant_eq := rfl
  neg_one_le_ediff := neg_one_le_scale_ediff T x h
  two_le_drop := by
    have hwm := ((Format.defined_iff f).1 h).2.2
    have hT : 10 ≤ T.mfmt := by cases T <;> decide
    show 2 ≤ T.mfmt - f.wm
    omega

/-- The binade of an input, with the denormals and the first normal binade both 0: the exponent after the alignment, less that of
a narrow denormal. -/
def binade (T : WideType) (f : Format) (x : Nat) : Nat :=
  ((scaleOf T f x).act + (scaleOf T f x).ediff - f.den).toNat

/-- The lower candidate of an input among all patterns: its retained part before rounding, from the start of its binade. -/
def lowerPattern (T : WideType) (f : Format) (x : Nat) : Nat :=
  binade T f x * 2 ^ f.wm + (roundIn T f .rne 0 x).quotient

/-- Neither the rounding mode nor the random bits play a part in it. -/
theorem lowerPattern_eq (T : WideType) (f : Format) (rm : RoundMode) (rng x : Nat) :
    lowerPattern T f x = binade T f x * 2 ^ f.wm + (roundIn T f rm rng x).quotient := rfl

section RoundIn
variable {f : Format} (hf : f.defined = true) (T : WideType) (rm : RoundMode) (rng x : Nat)
include hf

/-- The retained part before rounding has a leading 1 above binade 0, and never overflows. -/
theorem roundIn_quotient :
    (roundIn T f rm rng x).quotient < 2 * 2 ^ f.wm ∧
    (binade T f x = 0 ∨ 2 ^ f.wm ≤ (roundIn T f rm rng x).quotient) := by
  have ha := roundIn_aligned hf T rm rng x
  have hwidth := dropWidth_add_wm hf T
  have hlt : (roundIn T f rm rng x).mant < 2 ^ (T.mfmt + 1) := by
    have hpre := scale_mantPre_lt T f x
    rcases ha.cases with ⟨e, -, -, hm⟩ | ⟨he, -, hm⟩
    · exact hm ▸ (Nat.div_le_self _ _).trans_lt hpre
    · have hpre : (roundIn T f rm rng x).mantPre < 2 ^ T.mfmt :=
        scale_mantPre_lt_of_ediff_neg T x (he.trans_lt (by decide))
      rw [hm, pow_succ']
      omega
  rw [← ha.mant_div]
  refine ⟨?_, ?_⟩
  · rw [Nat.div_lt_iff_lt_mul (Nat.two_pow_pos _), ← pow_succ', ← pow_add]
    refine hlt.trans_le (Nat.pow_le_pow_right two_pos ?_)
    show T.mfmt + 1 ≤ f.wm + 1 + dropWidth T f
    omega
  · rcases scale_aligned_exponent T f x with hden | ⟨-, hediff, hlead⟩
    · left
      rw [binade, hden, sub_self]
      rfl
    · right
      have hmant : (roundIn T f rm rng x).mant = (scaleOf T f x).mantPre := by
        rw [ha.mant_eq]
        show alignMant _ (scaleOf T f x).ediff = _
        rw [hediff]
        rfl
      rw [Nat.le_div_iff_mul_le (Nat.two_pow_pos _), ← pow_add, hmant]
      refine le_trans (Nat.pow_le_pow_right two_pos ?_) hlead
      show f.wm + dropWidth T f ≤ T.mfmt
      omega

/-- The tentative exponent field (R70): 0 without a leading 1, else one more than the binade. -/
theorem roundIn_f8Exp :
    (roundIn T f rm rng x).f8Exp =
      if 2 ^ f.wm ≤ (roundIn T f rm rng x).quotient then (binade T f x : Int) + 1
      else 0 := by
  obtain ⟨hlt, hbin⟩ := roundIn_quotient hf T rm rng x
  have ha := roundIn_aligned hf T rm rng x
  have hwidth := dropWidth_add_wm hf T
  have hbit : bit (roundIn T f rm rng x).mant T.mfmt =
      (roundIn T f rm rng x).quotient / 2 ^ f.wm % 2 := by
    rw [bit, hwidth, Nat.shiftRight_add, Nat.shiftRight_eq_div_pow, Nat.shiftRight_eq_div_pow, ← ha.mant_div]
    rfl
  have hexp : (scaleOf T f x).act + (scaleOf T f x).ediff = f.den + binade T f x := by
    unfold binade
    rcases scale_aligned_exponent T f x with h | ⟨h, h0, -⟩ <;> omega
  have hf8 : (roundIn T f rm rng x).f8Exp =
      f.den + binade T f x + f.bias - (if bit (roundIn T f rm rng x).mant T.mfmt = 1 then 0 else 1) := by
    rw [← hexp]; rfl
  rw [hf8, hbit, Format.den]
  by_cases hge : 2 ^ f.wm ≤ (roundIn T f rm rng x).quotient
  · rw [if_pos hge, Nat.div_eq_of_lt_le (k := 1) (by omega) (by omega), if_pos (by decide)]
    omega
  · rw [if_neg hge, Nat.div_eq_of_lt (by omega), if_neg (by decide)]
    omega

/-- The pattern the rounding unit makes: `retained` ulps up from the start of the input's binade, in either mode. -/
theorem roundIn_out_code :
    (roundIn T f rm rng x).out.Normal f (dropWidth T f) ∧
    (roundIn T f rm rng x).out.code f (dropWidth T f) = binade T f x * 2 ^ f.wm + (roundIn T f rm rng x).retained := by
  obtain ⟨hlt, hbin⟩ := roundIn_quotient hf T rm rng x
  have hmem := (roundIn T f rm rng x).retained_mem
  rw [(roundIn_aligned hf T rm rng x).mant_div] at hmem
  refine RoundIn.out_code (u := roundIn T f rm rng x) (dropWidth_add_wm hf T) ?_
  rw [roundIn_f8Exp hf]
  split
  · exact .inr ⟨rfl, by omega, by omega⟩
  · exact .inl ⟨rfl, by omega, by omega⟩

/-- The encoder of a nonzero finite input, in either rounding mode: the case table of R80 at the pattern the unit makes. -/
theorem enc_eq_roundedPattern (clip : Bool) (hfin : isSpecial T x = false) (hx : x ≠ 0) :
    enc T f clip rm rng x = roundedPattern f clip (decompose T x).sign
      (min (binade T f x * 2 ^ f.wm + (roundIn T f rm rng x).retained) (f.cmax + 1)) := by
  obtain ⟨hnormal, hcode⟩ := roundIn_out_code hf T rm rng x
  have hwm := ((Format.defined_iff f).1 hf).2.1
  rw [enc, if_neg (by simp [hfin]), if_neg hx, finish_eq_roundedPattern hnormal clip _ (by omega), hcode]

/-- The ulp of the input's binade in units of the input's mantissa. -/
theorem ulp_eq_mantPre_weight :
    2 ^ binade T f x * 2 ^ (150 - f.bias - f.wm) =
      2 ^ (roundIn T f rm rng x).discarded * 2 ^ ((scaleOf T f x).act + 149 - T.mfmt).toNat := by
  have hwidth := dropWidth_add_wm hf T
  have hT : T.wbias + T.mfmt ≤ 150 := by cases T <;> decide
  have hb := Format.bias_add_wm_le hf
  have hact := one_sub_wbias_le_scale_act T f x
  have hD : ((roundIn T f rm rng x).discarded : Int) = dropWidth T f + (scaleOf T f x).ediff := by
    have ha := roundIn_aligned hf T rm rng x
    have := ha.two_le_drop
    have := ha.neg_one_le_ediff
    exact Int.toNat_of_nonneg (by omega)
  rw [← pow_add, ← pow_add]
  congr 1
  unfold binade
  have hden : f.den = 1 - (f.bias : Int) := rfl
  rcases scale_aligned_exponent T f x with h | ⟨h, h0, -⟩ <;> omega

/-- The input lies `remainder` units above the lower candidate, and the upper one `2^D` units: a unit is that of the mantissa
before the shift. -/
theorem candidate_magnitudes :
    ∃ unit, 0 < unit ∧
      wideMag T x = narrowMag f (lowerPattern T f x) + (roundIn T f rm rng x).remainder * unit ∧
      narrowMag f (lowerPattern T f x + 1) =
        narrowMag f (lowerPattern T f x) + 2 ^ (roundIn T f rm rng x).discarded * unit := by
  rw [lowerPattern_eq T f rm rng x]
  obtain ⟨hlt, hbin⟩ := roundIn_quotient hf T rm rng x
  have hlower := narrowMag_of_significand f hbin hlt.le
  have hupper := narrowMag_of_significand f (k := binade T f x) (j := (roundIn T f rm rng x).quotient + 1)
    (by omega) (by omega)
  have hpre : (scaleOf T f x).mantPre =
      (roundIn T f rm rng x).quotient * 2 ^ (roundIn T f rm rng x).discarded + (roundIn T f rm rng x).remainder :=
    (Nat.div_add_mod' _ _).symm
  rw [mul_assoc, ulp_eq_mantPre_weight hf T rm rng] at hlower hupper
  refine ⟨2 ^ ((scaleOf T f x).act + 149 - T.mfmt).toNat, by positivity, ?_, ?_⟩
  · rw [wideMag_eq_mantPre T f, hlower, hpre]
    ring
  · rw [add_assoc, hupper, hlower]
    ring

/-- The pattern the unit makes, cut at `cmax + 1`, is the nearest one, even on a tie. -/
theorem rne_betweenMidpoints :
    BetweenMidpoints f (wideMag T x)
      (min (binade T f x * 2 ^ f.wm + (roundIn T f .rne rng x).retained) (f.cmax + 1)) := by
  obtain ⟨unit, hunit, hinput, hupper⟩ := candidate_magnitudes hf T .rne rng x
  have ha := roundIn_aligned hf T .rne rng x
  have hwm := ((Format.defined_iff f).1 hf).2.1
  have hbelow := ha.retained_below_half rfl
  have habove := ha.retained_above_half rfl
  have htie := ha.retained_of_tie rfl
  have hrem : (roundIn T f .rne rng x).remainder < 2 ^ (roundIn T f .rne rng x).discarded :=
    Nat.mod_lt _ (Nat.two_pow_pos _)
  have hhalf := ha.two_pow_discarded
  have hparity : lowerPattern T f x % 2 = (roundIn T f .rne rng x).quotient % 2 := by
    have heven : 2 ∣ binade T f x * 2 ^ f.wm := Dvd.dvd.mul_left (dvd_pow_self 2 (by omega)) _
    rw [lowerPattern_eq T f .rne rng x]
    omega
  have hlower := lowerPattern_eq T f .rne rng x
  rw [hhalf] at hrem hupper
  rw [mul_assoc] at hupper
  generalize (roundIn T f .rne rng x).remainder = r at *
  generalize 2 ^ ((roundIn T f .rne rng x).discarded - 1) = half at *
  have hrem' : r * unit < 2 * (half * unit) := by
    rw [← mul_assoc]; exact Nat.mul_lt_mul_of_pos_right hrem hunit
  rcases lt_trichotomy r half with hlt | heq | hgt
  · have := Nat.mul_lt_mul_of_pos_right hlt hunit
    rw [hbelow hlt, ← hlower]
    exact betweenMidpoints_of_roundDown (by omega) (by omega) (by omega)
  · subst heq
    rw [htie rfl, ← add_assoc, ← hlower]
    rcases Nat.mod_two_eq_zero_or_one (roundIn T f .rne rng x).quotient with hq | hq <;> rw [hq] at hparity ⊢
    · rw [add_zero]
      exact betweenMidpoints_of_roundDown (by omega) (by omega) (fun _ => hparity)
    · exact betweenMidpoints_of_roundUp (by omega) (by omega) (by omega) (fun _ => hparity)
  · have := Nat.mul_lt_mul_of_pos_right hgt hunit
    rw [habove hgt, ← add_assoc, ← hlower]
    exact betweenMidpoints_of_roundUp (by omega) (by omega) (by omega) (by omega)

end RoundIn

/-- Settles O31: the pattern the rounding unit makes, cut at `cmax + 1`, lies between its midpoints, so it is the one nearest
element; the input 0, which leaves early, is nearest to 0. -/
theorem rneEncoderIsNearestEvenWhereDefined : Obligations.RneEncoderIsNearestEvenWhereDefined := by
  intro T f clip x hf _ hfin
  by_cases hx : x = 0
  · subst hx
    have hzero : BetweenMidpoints f (wideMag T 0) 0 := by
      have hv : wideMag T 0 = 0 := by cases T <;> rfl
      rw [hv]
      exact ⟨Nat.zero_le _, fun b hb => by omega, fun _ => ⟨Nat.zero_le _, fun _ => rfl⟩⟩
    refine ⟨0, hzero.isNearestEven_iff, ?_⟩
    rw [enc, if_neg (by simp [hfin]), if_pos rfl, roundedPattern, if_neg (by omega), if_pos rfl]
    cases T <;> simp [decompose, bit]
  · exact ⟨_, (rne_betweenMidpoints hf T 0 x).isNearestEven_iff, enc_eq_roundedPattern hf T .rne 0 x clip hfin hx⟩

end Sys2Proof.Machine
end

section
/-! PROOFS. Packing and unpacking (43_decoder.md R91, R97; 40_formats.md R49), and the decoder's NaN. -/

namespace Sys2Proof.Machine

/-- The packed fields do not overlap: they add up to the pattern (R97). -/
theorem packWide_eq_add (T : WideType) {sign : Nat} {n : Normalized} (he : n.exponent.toNat < 2 ^ T.weo) (hm : n.mantissa < 2 ^ T.mfmt) :
    packWide T sign n = sign * 2 ^ (T.width - 1) + (n.exponent.toNat * 2 ^ T.mfmt + n.mantissa) := by
  have hwidth : T.width - 1 = T.weo + T.mfmt := by cases T <;> rfl
  have hlow : n.exponent.toNat <<< T.mfmt + n.mantissa < 2 ^ (T.width - 1) := by
    have := Nat.mul_le_mul_right (2 ^ T.mfmt) (Nat.succ_le_of_lt he)
    rw [Nat.succ_mul] at this
    rw [hwidth, pow_add, Nat.shiftLeft_eq]
    omega
  rw [packWide, Nat.or_assoc, ← Nat.shiftLeft_add_eq_or_of_lt hm, ← Nat.shiftLeft_add_eq_or_of_lt hlow, Nat.shiftLeft_eq,
    Nat.shiftLeft_eq]

/-- A packed pattern has the fields it was packed from, and fits its width. -/
theorem decompose_packWide (T : WideType) {sign : Nat} {n : Normalized} (hs : sign < 2) (he : n.exponent.toNat < 2 ^ T.weo)
    (hm : n.mantissa < 2 ^ T.mfmt) :
    decompose T (packWide T sign n) = { sign := sign, exponent := n.exponent.toNat, mantissa := n.mantissa } ∧
    packWide T sign n < 2 ^ T.width := by
  rw [packWide_eq_add T he hm]
  generalize n.exponent = e at *
  generalize n.mantissa = m at *
  cases T <;>
    simp only [decompose, bit, slice, WideType.width, WideType.mfmt, WideType.weo, WideFields.mk.injEq,
      Nat.shiftRight_eq_div_pow] at he hm ⊢ <;>
    omega

/-- `DEC_NAN_T` is packed from an all-ones exponent and a nonzero mantissa (R92, log entry 4). -/
theorem exists_packWide_eq_decNan (T : WideType) :
    ∃ sign mantissa, sign < 2 ∧ mantissa ≠ 0 ∧ mantissa < 2 ^ T.mfmt ∧
      decNan T = packWide T sign { exponent := 2 ^ T.weo - 1, mantissa := mantissa } := by
  cases T
  · exact ⟨_, _, Bool.toNat_lt _, Nat.succ_ne_zero _, Nat.succ_lt_succ Config.decNanMantissaPredS.isLt, rfl⟩
  · exact ⟨_, _, Bool.toNat_lt _, Nat.succ_ne_zero _, Nat.succ_lt_succ Config.decNanMantissaPredH.isLt, rfl⟩

/-- Settles O38: the NaN is packed from an all-ones exponent and a nonzero mantissa, and these are the fields read back. -/
theorem decoderNaNIsNaN : Obligations.DecoderNaNIsNaN := by
  intro T
  obtain ⟨sign, mantissa, hs, hne, hlt, heq⟩ := exists_packWide_eq_decNan T
  have hexp : ((2 : Int) ^ T.weo - 1).toNat = 2 ^ T.weo - 1 := by cases T <;> rfl
  obtain ⟨hfields, hwidth⟩ := decompose_packWide T (n := { exponent := 2 ^ T.weo - 1, mantissa := mantissa }) hs
    (hexp.trans_lt (Nat.sub_lt (Nat.two_pow_pos _) one_pos)) hlt
  rw [heq]
  refine ⟨?_, hwidth⟩
  simp [isWideNaN, isSpecial, hfields, hne, hexp]

/-- The three fields of a narrow pattern (R91). -/
theorem narrowFields_of_defined {f : Format} (h : f.defined = true) {y : Nat} (hy : y < 256) :
    narrowFields f y = { sign := y / 128, exponent := y % 128 / 2 ^ f.wm, mantissa := y % 128 % 2 ^ f.wm } := by
  obtain ⟨-, hlo, hhi⟩ := (Format.defined_iff f).1 h
  simp only [narrowFields, bit, slice, Nat.shiftRight_eq_div_pow, NarrowFields.mk.injEq]
  generalize f.wm = wm at *
  interval_cases wm <;> norm_num <;> omega

end Sys2Proof.Machine
end

section
/-! PROOFS. The decoder's normalization (43_decoder.md R94). -/

namespace Sys2Proof.Machine

/-- The shift of a nonzero narrow mantissa: the distance of its highest 1 from bit `wm`. -/
theorem normShift_eq {f : Format} (hwm : f.wm ≤ 32) {m : Nat} (h0 : m ≠ 0) (hm : m < 2 ^ f.wm) :
    normShift f m = f.wm - m.log2 ∧ m.log2 < f.wm := by
  have hlog : m.log2 < f.wm := (Nat.log2_lt h0).2 hm
  rw [normShift, clz32, if_neg h0]
  omega

/-- The shift brings the highest 1 to bit `wm`. -/
theorem shiftLeft_normShift {f : Format} (hwm : f.wm ≤ 32) {m : Nat} (h0 : m ≠ 0) (hm : m < 2 ^ f.wm) :
    2 ^ f.wm ≤ m <<< normShift f m ∧ m <<< normShift f m < 2 ^ (f.wm + 1) := by
  obtain ⟨hsh, hlog⟩ := normShift_eq hwm h0 hm
  have hpow : 2 ^ f.wm = 2 ^ m.log2 * 2 ^ normShift f m := by rw [← pow_add]; congr 1; omega
  have hpos : 0 < 2 ^ normShift f m := Nat.two_pow_pos _
  rw [Nat.shiftLeft_eq, hpow, pow_succ, hpow, mul_right_comm, ← pow_succ]
  exact ⟨Nat.mul_le_mul_right _ (Nat.log2_self_le h0), Nat.mul_lt_mul_of_pos_right Nat.lt_log2_self hpos⟩

/-- Beyond step 2 a pattern is not zero: both zeros, or under `nzn` zero and NaN, have left. -/
theorem magnitude_ne_zero_of_decodeSpecial {T : WideType} {f : Format} {nan y : Nat} (hy : y < 256)
    (h : decodeSpecial nan T f y = none) : y % 128 ≠ 0 := by
  have hpos : y ≠ 0 := by rintro rfl; simp [decodeSpecial] at h
  have hneg : y ≠ 0x80 := by rintro rfl; cases hn : f.nzn <;> simp [decodeSpecial, hn] at h
  omega

/-- Settles O41: with exponent field 0 the mantissa is the whole magnitude, which is not 0 beyond step 2, so its highest 1 is below
bit `wm`, where the shift brings it. -/
theorem normalizationMeetsNoZero : Obligations.NormalizationMeetsNoZero := by
  intro T f nan y hf hy hnone hexp m
  have hd := Format.defined_of_wf hf
  obtain ⟨-, -, hwm⟩ := (Format.defined_iff f).1 hd
  have hmag := magnitude_ne_zero_of_decodeSpecial hy hnone
  have hfields := narrowFields_of_defined hd hy
  have hm : m = y % 128 % 2 ^ f.wm := by simp only [m, hfields]
  have hlt : m < 2 ^ f.wm := hm ▸ Nat.mod_lt _ (Nat.two_pow_pos _)
  have h0 : m ≠ 0 := by
    rw [hfields] at hexp
    rw [hm, Nat.mod_eq_of_lt (Nat.lt_of_div_eq_zero (Nat.two_pow_pos _) hexp)]
    exact hmag
  obtain ⟨hsh, hlog⟩ := normShift_eq (by omega) h0 hlt
  obtain ⟨hge, hle⟩ := shiftLeft_normShift (f := f) (by omega) h0 hlt
  exact ⟨h0, by omega, by omega, hge, hle⟩

end Sys2Proof.Machine
end

section
/-! PROOFS. The decoder's early results (43_decoder.md R90, R92) by class of the narrow pattern. -/

namespace Sys2Proof.Machine

/-- Without `nzn` the all-ones exponent is that of infinities and NaNs only. -/
theorem narrowFields_exponent_ne_of_finite {f : Format} {y : Nat} (hnzn : f.nzn = false) (hnan : isNarrowNaN f y = false)
    (hinf : isNarrowInf f y = false) : (narrowFields f y).exponent ≠ 2 ^ f.we - 1 := by
  intro hexp
  by_cases hmant : (narrowFields f y).mantissa = 0
  · simp [isNarrowInf, hnzn, hexp, hmant] at hinf
  · simp [isNarrowNaN, hnzn, hexp, hmant] at hnan

section Special
variable {f : Format} (hf : f.defined = true) {y : Nat} (hy : y < 256)
include hf hy

theorem narrowFields_exponent_lt : (narrowFields f y).exponent < 2 ^ f.we := by
  obtain ⟨hsum, -, -⟩ := (Format.defined_iff f).1 hf
  rw [narrowFields_of_defined hf hy, Nat.div_lt_iff_lt_mul (Nat.two_pow_pos _), ← pow_add, add_comm, hsum]
  exact Nat.mod_lt _ (by decide)

/-- A zero pattern has exponent field 0, which is not all ones. -/
theorem narrowFields_exponent_ne_of_zero (h : y % 128 = 0) : (narrowFields f y).exponent ≠ 2 ^ f.we - 1 := by
  have hwe : f.we ≠ 0 := by obtain ⟨hsum, -, hhi⟩ := (Format.defined_iff f).1 hf; omega
  have htwo : 2 ≤ 2 ^ f.we := Nat.le_self_pow hwe 2
  rw [narrowFields_of_defined hf hy, h, Nat.zero_div]
  show 0 ≠ 2 ^ f.we - 1
  omega

theorem decodeSpecial_of_nan (nan : Nat) (T : WideType) (h : isNarrowNaN f y = true) : decodeSpecial nan T f y = some nan := by
  rw [isNarrowNaN] at h
  by_cases hnzn : f.nzn = true
  · obtain rfl : y = 0x80 := by simpa [hnzn] using h
    simp [decodeSpecial, hnzn]
  · obtain ⟨hexp, hmant⟩ : (narrowFields f y).exponent = 2 ^ f.we - 1 ∧ (narrowFields f y).mantissa ≠ 0 := by
      simpa [hnzn] using h
    have hmag := mt (narrowFields_exponent_ne_of_zero hf hy) (not_not.2 hexp)
    rw [decodeSpecial, if_neg (by omega), if_neg hnzn, if_neg (by omega), if_pos hexp, if_neg hmant]

theorem decodeSpecial_of_inf (nan : Nat) (T : WideType) (h : isNarrowInf f y = true) :
    decodeSpecial nan T f y = some (wideInf T (y / 128)) := by
  obtain ⟨⟨hnzn, hexp⟩, hmant⟩ : (f.nzn = false ∧ (narrowFields f y).exponent = 2 ^ f.we - 1) ∧
      (narrowFields f y).mantissa = 0 := by simpa [isNarrowInf] using h
  have hmag := mt (narrowFields_exponent_ne_of_zero hf hy) (not_not.2 hexp)
  rw [decodeSpecial, if_neg (by omega), if_neg (by simp [hnzn]), if_neg (by omega), if_pos hexp, if_pos hmant,
    narrowFields_of_defined hf hy]

/-- A finite pattern has no exponent field beyond `max_exp`. -/
theorem narrowFields_exponent_le_maxExp (hnan : isNarrowNaN f y = false) (hinf : isNarrowInf f y = false) :
    (narrowFields f y).exponent ≤ f.maxExp := by
  have hlt := narrowFields_exponent_lt hf hy
  rw [Format.maxExp]
  by_cases hnzn : f.nzn = true
  · rw [if_pos hnzn]; omega
  · have hne := narrowFields_exponent_ne_of_finite (by simpa using hnzn) hnan hinf
    rw [if_neg hnzn]; omega

omit hf in
/-- Of the finite patterns only the zeros leave early, as the wide zero of their sign. -/
theorem decodeSpecial_of_finite (nan : Nat) (T : WideType) (hnan : isNarrowNaN f y = false) (hinf : isNarrowInf f y = false) :
    decodeSpecial nan T f y = if y % 128 = 0 then some (packWide T (y / 128) { exponent := 0, mantissa := 0 }) else none := by
  rw [decodeSpecial]
  by_cases hzero : y = 0
  · subst hzero; simp [packWide]
  rw [if_neg hzero]
  by_cases hnzn : f.nzn = true
  · have hne : y ≠ 0x80 := by simpa [isNarrowNaN, hnzn] using hnan
    rw [if_pos hnzn, if_neg hne, if_neg (by omega)]
  rw [if_neg hnzn]
  by_cases hneg : y = 0x80
  · subst hneg; simp [packWide, Nat.shiftLeft_eq]
  rw [if_neg hneg, if_neg (show ¬ y % 128 = 0 by omega),
    if_neg (narrowFields_exponent_ne_of_finite (by simpa using hnzn) hnan hinf)]

end Special

end Sys2Proof.Machine
end

section
/-! PROOFS. The decoder is exact on finite patterns (43_decoder.md R93 to R97, R100). -/

namespace Sys2Proof.Machine

/-- `w` is the finite wide pattern with the sign and the magnitude of the narrow pattern `y`. -/
def IsExactImage (T : WideType) (f : Format) (y w : Nat) : Prop :=
  w < 2 ^ T.width ∧ isSpecial T w = false ∧ (decompose T w).sign = y / 128 ∧ wideMag T w = narrowMag f (y % 128)

/-- Fields that a finite wide pattern can have. -/
def Normalized.FitsWide (T : WideType) (n : Normalized) : Prop :=
  0 ≤ n.exponent ∧ n.exponent < 2 ^ T.weo - 1 ∧ n.mantissa < 2 ^ T.mfmt

/-- The magnitude of the wide pattern packed from the fields `n`. -/
def Normalized.packedMag (T : WideType) (n : Normalized) : Nat :=
  (if n.exponent.toNat = 0 then n.mantissa else (2 ^ T.mfmt + n.mantissa) * 2 ^ (n.exponent.toNat - 1)) *
    2 ^ (150 - T.wbias - T.mfmt)

theorem isExactImage_packWide {T : WideType} {f : Format} {y : Nat} {n : Normalized} (hy : y < 256) (hn : n.FitsWide T)
    (hmag : n.packedMag T = narrowMag f (y % 128)) : IsExactImage T f y (packWide T (y / 128) n) := by
  obtain ⟨h0, hlt, hm⟩ := hn
  have hexp : n.exponent.toNat < 2 ^ T.weo - 1 := by
    cases T <;> simp only [WideType.weo] at hlt ⊢ <;> omega
  obtain ⟨hfields, hwidth⟩ := decompose_packWide T (sign := y / 128) (n := n) (by omega) (by omega) hm
  refine ⟨hwidth, ?_, by rw [hfields], ?_⟩
  · simpa [isSpecial, hfields] using hexp.ne
  · rw [← hmag, wideMag, hfields]; rfl

/-- Where the deficit shifts out zeros only, step 6 keeps the value. -/
theorem denormalize_packedMag {T : WideType} {n : Normalized} (hm : n.mantissa < 2 ^ T.mfmt)
    (hexact : 2 ^ (1 - n.exponent).toNat ∣ 2 ^ T.mfmt + n.mantissa) (hlow : 0 ≤ n.exponent + 149 - T.wbias - T.mfmt)
    (hhigh : n.exponent < 2 ^ T.weo - 1) :
    (denormalize T n).FitsWide T ∧
    (denormalize T n).packedMag T = (2 ^ T.mfmt + n.mantissa) * 2 ^ (n.exponent + 149 - T.wbias - T.mfmt).toNat := by
  have hT : T.wbias + T.mfmt ≤ 150 ∧ (1 : Int) < 2 ^ T.weo := by cases T <;> decide
  rw [denormalize]
  split
  · rename_i hle
    have hor : n.mantissa ||| 2 ^ T.mfmt = 2 ^ T.mfmt + n.mantissa := by
      have := Nat.two_pow_add_eq_or_of_lt hm 1
      rw [Nat.or_comm, ← mul_one (2 ^ T.mfmt), this]
    obtain ⟨q, hq⟩ := hexact
    have hquot : (n.mantissa ||| 2 ^ T.mfmt) >>> (1 - n.exponent).toNat = q := by
      rw [hor, hq, Nat.shiftRight_eq_div_pow, Nat.mul_div_cancel_left _ (Nat.two_pow_pos _)]
    have hqlt : q < 2 ^ T.mfmt := by
      have htwo : 2 ≤ 2 ^ (1 - n.exponent).toNat := Nat.le_self_pow (by omega) 2
      have := Nat.mul_le_mul_right q htwo
      omega
    refine ⟨⟨le_rfl, by simp only; omega, by simpa only [hquot] using hqlt⟩, ?_⟩
    rw [Normalized.packedMag, if_pos (show Int.toNat 0 = 0 from rfl), hquot, hq, mul_comm _ q, mul_assoc, ← pow_add]
    congr 2
    omega
  · refine ⟨⟨by omega, hhigh, hm⟩, ?_⟩
    rw [Normalized.packedMag, if_neg (by omega), mul_assoc, ← pow_add]
    congr 2
    omega

section General
variable {f : Format} (hf : f.defined = true) {y : Nat} (hy : y < 256)
include hf hy

/-- Step 4 writes a nonzero pattern with a leading 1 and keeps its magnitude. -/
theorem normalizeNarrow_spec (h0 : y % 128 ≠ 0) :
    1 - (f.wm : Int) ≤ (normalizeNarrow f (narrowFields f y)).exponent ∧
    (normalizeNarrow f (narrowFields f y)).exponent ≤ (narrowFields f y).exponent ∧
    (normalizeNarrow f (narrowFields f y)).mantissa < 2 ^ f.wm ∧
    narrowMag f (y % 128) = (2 ^ f.wm + (normalizeNarrow f (narrowFields f y)).mantissa) *
      2 ^ ((normalizeNarrow f (narrowFields f y)).exponent + 149 - f.bias - f.wm).toNat := by
  obtain ⟨-, hlo, hhi⟩ := (Format.defined_iff f).1 hf
  have hb := Format.bias_add_wm_le hf
  have hmod : y % 128 % 2 ^ f.wm < 2 ^ f.wm := Nat.mod_lt _ (Nat.two_pow_pos _)
  rw [narrowFields_of_defined hf hy, normalizeNarrow, narrowMag, Nat.shiftRight_eq_div_pow]
  have hmant : y % 128 / 2 ^ f.wm = 0 → y % 128 % 2 ^ f.wm ≠ 0 := fun hexp => by
    rwa [Nat.mod_eq_of_lt (Nat.lt_of_div_eq_zero (Nat.two_pow_pos _) hexp)]
  generalize y % 128 / 2 ^ f.wm = e at *
  generalize y % 128 % 2 ^ f.wm = m at *
  by_cases hexp : e = 0
  · obtain ⟨hsh, hlog⟩ := normShift_eq (by omega) (hmant hexp) hmod
    obtain ⟨hge, hlt⟩ := shiftLeft_normShift (by omega) (hmant hexp) hmod
    have hmask : 2 ^ f.wm + (m <<< normShift f m) % 2 ^ f.wm = m * 2 ^ normShift f m := by
      rw [pow_succ] at hlt
      rw [Nat.mod_eq_sub_mod hge, Nat.mod_eq_of_lt (by omega), Nat.add_sub_cancel' hge, Nat.shiftLeft_eq]
    simp only [hexp, if_true, Nat.and_two_pow_sub_one_eq_mod]
    refine ⟨by omega, by omega, Nat.mod_lt _ (Nat.two_pow_pos _), ?_⟩
    rw [hmask, mul_assoc, ← pow_add]
    congr 2
    omega
  · simp only [if_neg hexp]
    refine ⟨by omega, le_rfl, hmod, ?_⟩
    rw [mul_assoc, ← pow_add]
    congr 2
    omega

/-- Steps 4 to 7 are exact: the wide mantissa has room for the bits the deficit shifts down. -/
theorem decodeGeneral_exact (T : WideType) (h0 : y % 128 ≠ 0) (hmax : (narrowFields f y).exponent ≤ f.maxExp) :
    IsExactImage T f y (decodeGeneral T f y) := by
  obtain ⟨hlow, hhigh, hmant, hmag⟩ := normalizeNarrow_spec hf hy h0
  have hsign : (narrowFields f y).sign = y / 128 := by rw [narrowFields_of_defined hf hy]
  rw [decodeGeneral, hsign]
  generalize normalizeNarrow f (narrowFields f y) = n at *
  obtain ⟨-, hlo, hhi⟩ := (Format.defined_iff f).1 hf
  have hb := Format.bias_add_wm_le hf
  have hmaxExp := Format.maxExp_le hf
  have hwidth := dropWidth_add_wm hf T
  have hT : T.wbias + T.mfmt ≤ 150 ∧ 25 ≤ T.wbias + T.mfmt ∧ T.mfmt ≤ 23 ∧ (T.wbias : Int) + 16 < 2 ^ T.weo := by cases T <;> decide
  have hlead : 2 ^ T.mfmt + (rebias T f n).mantissa = (2 ^ f.wm + n.mantissa) * 2 ^ dropWidth T f := by
    rw [hwidth, add_comm (dropWidth T f), pow_add, add_mul]
    simp only [rebias, Nat.shiftLeft_eq, dropWidth]
  have hexp : (rebias T f n).exponent = n.exponent + (T.wbias - f.bias) := rfl
  have hm : (rebias T f n).mantissa < 2 ^ T.mfmt := by
    have : (2 ^ f.wm + n.mantissa) * 2 ^ dropWidth T f < 2 * 2 ^ f.wm * 2 ^ dropWidth T f :=
      Nat.mul_lt_mul_of_pos_right (by omega) (Nat.two_pow_pos _)
    rw [mul_assoc, ← pow_add, add_comm f.wm, ← hwidth] at this
    omega
  obtain ⟨hfits, hvalue⟩ := denormalize_packedMag hm
    (hlead ▸ Dvd.dvd.mul_left (pow_dvd_pow 2 (by omega)) _) (by omega) (by omega)
  refine isExactImage_packWide hy hfits ?_
  rw [hvalue, hlead, hmag, mul_assoc, ← pow_add]
  congr 2
  omega

/-- Step 3 is exact for the one format it serves: binary16 has its exponent, and two of its mantissa bits. -/
theorem fastPath_exact {T : WideType} (h : takesFastPath T f = true) (hmax : (narrowFields f y).exponent ≤ f.maxExp) :
    IsExactImage T f y (fastPath y) := by
  obtain ⟨⟨hwe, rfl⟩, hnzn⟩ : (f.we = 5 ∧ T = .h) ∧ f.nzn = false := by simpa [takesFastPath] using h
  have hwm : f.wm = 2 := by have := ((Format.defined_iff f).1 hf).1; omega
  rw [narrowFields_of_defined hf hy, Format.maxExp, hwm, hwe, hnzn] at hmax
  have hbias : f.bias = 15 := by rw [Format.bias, hwe, hnzn]; rfl
  have hpack : fastPath y =
      packWide .h (y / 128) { exponent := (y % 128 / 4 : Nat), mantissa := y % 4 * 2 ^ 8 } := by
    rw [packWide_eq_add _ (by simp [WideType.weo]; omega) (by simp [WideType.mfmt]; omega), fastPath, Nat.shiftLeft_eq]
    simp [WideType.width, WideType.mfmt]
    omega
  rw [hpack]
  refine isExactImage_packWide hy ⟨Int.natCast_nonneg _, ?_, by simp [WideType.mfmt]; omega⟩ ?_
  · simp [WideType.weo] at hmax ⊢; omega
  · rw [narrowMag, hwm, hbias, Nat.shiftRight_eq_div_pow, Nat.mod_mod_of_dvd y (show 2 ^ 2 ∣ 128 by decide),
      Normalized.packedMag, Int.toNat_natCast]
    split <;> simp only [WideType.mfmt, WideType.wbias, Nat.reduceSub, Nat.reducePow] <;> ring

/-- Every finite pattern decodes exactly, by whichever path. -/
theorem decWith_exact (nan : Nat) (T : WideType) (hnan : isNarrowNaN f y = false) (hinf : isNarrowInf f y = false) :
    IsExactImage T f y (decWith nan T f y) := by
  have hmax := narrowFields_exponent_le_maxExp hf hy hnan hinf
  rw [decWith, decodeSpecial_of_finite hy nan T hnan hinf]
  by_cases h0 : y % 128 = 0
  · rw [if_pos h0]
    refine isExactImage_packWide hy ⟨le_rfl, by cases T <;> decide, Nat.two_pow_pos _⟩ ?_
    rw [h0, narrowMag_zero]
    simp [Normalized.packedMag]
  · rw [if_neg h0]
    simp only
    split
    · rename_i hfast
      exact fastPath_exact hf hy hfast hmax
    · exact decodeGeneral_exact hf hy T h0 hmax

end General

/-- Settles O45: NaNs and infinities leave at step 2, and the finite patterns are exact on both paths. -/
theorem decoderIsExactWhereDefined : Obligations.DecoderIsExactWhereDefined := by
  intro T f nan y hf hy
  refine ⟨fun hnan => ?_, fun hinf => ?_, fun hnan hinf => decWith_exact hf hy nan T hnan hinf⟩
  · rw [decWith, decodeSpecial_of_nan hf hy nan T hnan]
  · rw [decWith, decodeSpecial_of_inf hf hy nan T hinf]

end Sys2Proof.Machine
end

section
/-! PROOFS. The step and the function `F(cmd, src, rng)` (10_state.md R20, 30_encoding.md R36), and the ports at reset. -/

namespace Sys2Proof.Machine

variable {s : State} {w : Cmd} {i : Instr} {r : Illegal}

theorem step_of_decode (h : decode s.cmd = .ok i) : step s = exec i s := by simp [step, h]

theorem step_of_decode_error (h : decode s.cmd = .error r) : step s = .refused (refusalOf r) := by simp [step, h]

theorem produce_of_illegal {f : Format} (h : legality f = some r) (v : Word) (s : State) :
    produce f v s = .refused (refusalOf r) := by
  simp [produce, h]

theorem coreFunction_of_decode_error (h : decode w = .error r) (src rng : Word) : coreFunction w src rng = .error r := by
  simp [coreFunction, decodeLegal, h]

theorem coreFunction_of_illegal (h : decode w = .ok i) (hl : legality i.format = some r) (src rng : Word) :
    coreFunction w src rng = .error r := by
  simp [coreFunction, decodeLegal, h, hl]

theorem coreFunction_of_legal (h : decodeLegal w = .ok i) (src rng : Word) :
    coreFunction w src rng = .ok (i.value src rng) := by
  simp [coreFunction, h]

/-- Settles O10, by the first check of 30_encoding.md R40 that fails, or none. -/
theorem stepIsTheCoreFunction : Obligations.StepIsTheCoreFunction := by
  intro s
  cases hd : decode s.cmd with
  | error r => rw [step_of_decode_error hd, coreFunction_of_decode_error hd]
  | ok i =>
    rw [step_of_decode hd, exec_eq_produce]
    cases hl : legality i.format with
    | some r => rw [produce_of_illegal hl, coreFunction_of_illegal hd hl]
    | none =>
      have hwf : i.wf = true := (legality_eq_none_iff _).1 hl
      rw [produce_of_wf hwf, coreFunction_of_legal ((decodeLegal_ok_iff _ _).2 ⟨hd, hwf⟩)]

/-- Settles O6: the whole decoder accepts a word only with the operation of the opcode match. -/
theorem stepRunsTheDecodedOperation : Obligations.StepRunsTheDecodedOperation := fun _ _ =>
  ⟨step_of_decode, fun h => step_of_decode ((decodeLegal_ok_iff _ _).1 h).1⟩

/-- Settles O11: an operation that answers a next state has driven `dst`. -/
theorem operationsWriteOnlyDst : Obligations.OperationsWriteOnlyDst := by
  intro i s t h
  obtain ⟨-, rfl⟩ := exec_next_iff.1 h
  exact ⟨State.setDst_cmd .., State.setDst_src .., State.setDst_rng ..⟩

/-- At reset the command word fails the check `WidthSum`. -/
theorem coreFunction_reset (src rng : Word) : coreFunction State.reset.cmd src rng = .error .widthSum :=
  coreFunction_of_illegal (i := .encSRne ⟨0, 0, false⟩ false) rfl rfl src rng

/-- Settles O16: `F` has no value at reset. -/
theorem resetIsSettled : Obligations.ResetIsSettled := by
  intro v h
  rw [coreFunction_reset] at h
  cases h

end Sys2Proof.Machine
end

section
/-! PROOFS. Which bits of the ports an operation reads (10_state.md R26, 30_encoding.md R39).  Every read mask is a run of low
bits, and every operand is a remainder. -/

namespace Sys2Proof

theorem Instr.eq_enc_or_dec (i : Instr) :
    (∃ T rm f clip, i = Instr.enc T rm f clip) ∨ ∃ T f, i = Instr.dec T f := by
  cases i with
  | encSRne f clip => exact .inl ⟨.s, .rne, f, clip, rfl⟩
  | encSSr f clip => exact .inl ⟨.s, .sr, f, clip, rfl⟩
  | encHRne f clip => exact .inl ⟨.h, .rne, f, clip, rfl⟩
  | encHSr f clip => exact .inl ⟨.h, .sr, f, clip, rfl⟩
  | decS f => exact .inr ⟨.s, f, rfl⟩
  | decH f => exact .inr ⟨.h, f, rfl⟩

namespace Machine

theorem toNat_mod_eq_of_and_lowMask_eq {k : Nat} (hk : k ≤ 32) {a b : Word}
    (h : a &&& BitVec.ofNat 32 (2 ^ k - 1) = b &&& BitVec.ofNat 32 (2 ^ k - 1)) :
    a.toNat % 2 ^ k = b.toNat % 2 ^ k := by
  have hmask : (2 ^ k - 1) % 2 ^ 32 = 2 ^ k - 1 := by
    have := Nat.pow_le_pow_right (n := 2) (by decide) hk
    exact Nat.mod_eq_of_lt (by omega)
  simpa only [BitVec.toNat_and, BitVec.toNat_ofNat, hmask, Nat.and_two_pow_sub_one_eq_mod] using congrArg BitVec.toNat h

theorem wideOperand_eq_mod (T : WideType) (src : Word) : wideOperand T src = src.toNat % 2 ^ T.width := by
  cases T <;> rfl

theorem narrowOperand_eq_mod (src : Word) : narrowOperand src = src.toNat % 2 ^ 8 := rfl

theorem srcReadMask_enc (T : WideType) (rm : RoundMode) (f : Format) (clip : Bool) :
    srcReadMask (Instr.enc T rm f clip) = BitVec.ofNat 32 (2 ^ T.width - 1) := by
  cases T <;> cases rm <;> rfl

theorem srcReadMask_dec (T : WideType) (f : Format) : srcReadMask (Instr.dec T f) = BitVec.ofNat 32 (2 ^ 8 - 1) := by
  cases T <;> rfl

theorem rngReadMask_enc_sr (T : WideType) (f : Format) (clip : Bool) :
    rngReadMask (Instr.enc T .sr f clip) = BitVec.ofNat 32 (2 ^ dropWidth T f - 1) := by
  cases T <;> rfl

theorem dropWidth_le (T : WideType) (f : Format) : dropWidth T f ≤ 32 := by
  cases T <;> simp only [dropWidth, WideType.mfmt] <;> omega

/-- The addend of a stochastic rounding is the low `drop` random bits (42_rounding.md R83), and nothing else reads `rng`. -/
theorem roundIn_sr_out_congr {T : WideType} {f : Format} {rng rng' : Nat}
    (h : rng % 2 ^ dropWidth T f = rng' % 2 ^ dropWidth T f) (x : Nat) :
    (roundIn T f .sr rng x).out = (roundIn T f .sr rng' x).out := by
  have hadd (r : Nat) : (roundIn T f .sr r x).addend = r % 2 ^ dropWidth T f := Nat.and_two_pow_sub_one_eq_mod r _
  simp only [RoundIn.out, RoundIn.sum, hadd, h]
  rfl

theorem enc_sr_congr {T : WideType} {f : Format} {rng rng' : Nat}
    (h : rng % 2 ^ dropWidth T f = rng' % 2 ^ dropWidth T f) (clip : Bool) (x : Nat) :
    enc T f clip .sr rng x = enc T f clip .sr rng' x := by
  simp only [enc, roundIn_sr_out_congr h]

/-- The value of an operation depends on the bits of its read masks only. -/
theorem value_congr_of_readMasks {i : Instr} {src src' rng rng' : Word} (hsrc : src &&& srcReadMask i = src' &&& srcReadMask i)
    (hrng : rng &&& rngReadMask i = rng' &&& rngReadMask i) : i.value src rng = i.value src' rng' := by
  obtain ⟨T, rm, f, clip, rfl⟩ | ⟨T, f, rfl⟩ := i.eq_enc_or_dec
  · rw [srcReadMask_enc] at hsrc
    have hx : wideOperand T src = wideOperand T src' := by
      rw [wideOperand_eq_mod, wideOperand_eq_mod, toNat_mod_eq_of_and_lowMask_eq (by cases T <;> decide) hsrc]
    rw [enc_value, enc_value, hx]
    cases rm with
    | rne => rfl
    | sr =>
      rw [rngReadMask_enc_sr] at hrng
      exact congrArg narrowResult (enc_sr_congr (toNat_mod_eq_of_and_lowMask_eq (dropWidth_le T f) hrng) clip _)
  · rw [srcReadMask_dec] at hsrc
    have hy : narrowOperand src = narrowOperand src' := toNat_mod_eq_of_and_lowMask_eq (by decide) hsrc
    rw [dec_value, dec_value, hy]

/-- Settles O12: both states get the value of the operation, which is the same for their operands. -/
theorem resultReadsOnlyItsOperands : Obligations.ResultReadsOnlyItsOperands := fun _ _ _ hwf hsrc hrng =>
  ⟨_, exec_next_iff.2 ⟨hwf, rfl⟩, exec_next_iff.2 ⟨hwf, by rw [value_congr_of_readMasks hsrc hrng]⟩⟩

end Machine

end Sys2Proof
end

section
/-! PROOFS. Repeated and reordered operations (20_memory.md R31, R33).  A step answers the value of `F` for the presented
operands, so a run answers the values of `F` one by one, whatever the state it starts from. -/

namespace Sys2Proof.Machine

variable {s t : State} {v : Word}

/-- Settles O14: the step drives `dst` only, so the same value is driven again. -/
theorem stepIsIdempotent : Obligations.StepIsIdempotent := by
  intro s t h
  obtain ⟨i, hi, rfl⟩ := step_next_iff.1 h
  exact step_next_iff.2 ⟨i, by simpa using hi, by simp⟩

theorem coreFunction_ok_iff {w : Cmd} {src rng : Word} :
    coreFunction w src rng = .ok v ↔ ∃ i, decodeLegal w = .ok i ∧ v = i.value src rng := by
  unfold coreFunction
  cases decodeLegal w <;> simp [eq_comm]

theorem step_next_iff_coreFunction :
    step s = .next t ↔ ∃ v, coreFunction s.cmd s.src s.rng = .ok v ∧ t = s.setDst v := by
  rw [step_next_iff]
  constructor
  · rintro ⟨i, hi, rfl⟩
    exact ⟨_, coreFunction_ok_iff.2 ⟨i, hi, rfl⟩, rfl⟩
  · rintro ⟨v, hv, rfl⟩
    obtain ⟨i, hi, rfl⟩ := coreFunction_ok_iff.1 hv
    exact ⟨i, hi, rfl⟩

/-- Everything a run of at least one operation can do when it answers results. -/
theorem walk_cons_next_iff {p : Presentation} {ps : List Presentation} {ds : List Word} :
    walk s (p :: ps) = .next ds ↔
      ∃ t es, step (p.drive s) = .next t ∧ walk t ps = .next es ∧ ds = t.dst :: es := by
  rw [walk]
  cases hstep : step (p.drive s) with
  | fault r => simp
  | refused r => simp
  | next t => cases hwalk : walk t ps <;> simp [hwalk, eq_comm]

/-- The results of a run are the values of `F` for its operations; the state it starts from does not occur in them. -/
theorem walk_next_iff {ps : List Presentation} {ds : List Word} :
    walk s ps = .next ds ↔ List.Forall₂ (fun p d => coreFunction p.cmd p.src p.rng = .ok d) ps ds := by
  induction ps generalizing s ds with
  | nil => simp [walk, eq_comm]
  | cons p ps ih =>
    rw [walk_cons_next_iff, List.forall₂_cons_left_iff]
    constructor
    · rintro ⟨t, es, hstep, hwalk, rfl⟩
      obtain ⟨v, hv, rfl⟩ := step_next_iff_coreFunction.1 hstep
      exact ⟨v, es, hv, ih.1 hwalk, rfl⟩
    · rintro ⟨v, es, hv, hes, rfl⟩
      exact ⟨(p.drive s).setDst v, es, step_next_iff_coreFunction.2 ⟨v, hv, rfl⟩, ih.2 hes, rfl⟩

/-- Partners of a list's elements can be permuted with the elements. -/
theorem exists_forall₂_zip_perm {α β : Type} {R : α → β → Prop} {as bs : List α} (hperm : as.Perm bs) :
    ∀ {ds : List β}, List.Forall₂ R as ds → ∃ es, List.Forall₂ R bs es ∧ (as.zip ds).Perm (bs.zip es) := by
  induction hperm with
  | nil => rintro _ ⟨⟩; exact ⟨[], .nil, .nil⟩
  | cons a _ ih =>
    rintro _ (_ | ⟨hd, hds⟩)
    obtain ⟨es, hes, hzip⟩ := ih hds
    exact ⟨_ :: es, .cons hd hes, hzip.cons _⟩
  | swap a b as =>
    rintro _ (_ | ⟨hb, _ | ⟨ha, hds⟩⟩)
    exact ⟨_, .cons ha (.cons hb hds), .swap ..⟩
  | trans _ _ ih₁ ih₂ =>
    intro _ hds
    obtain ⟨es, hes, hzip₁⟩ := ih₁ hds
    obtain ⟨fs, hfs, hzip₂⟩ := ih₂ hes
    exact ⟨fs, hfs, hzip₁.trans hzip₂⟩

/-- Settles O19: each operation has its own value of `F`, wherever it stands in the run. -/
theorem orderOfOperationsDoesNotMatter : Obligations.OrderOfOperationsDoesNotMatter := by
  intro s t ps qs ds hperm hwalk
  obtain ⟨es, hes, hzip⟩ := exists_forall₂_zip_perm hperm (walk_next_iff.1 hwalk)
  exact ⟨es, walk_next_iff.2 hes, hzip⟩

end Sys2Proof.Machine
end

section
/-! PROOFS. The command word (30_encoding.md R37, R41): its fields, and the two directions of the encoding. -/

namespace Sys2Proof

/-- The wide type that the bit `T` of a command word selects (R35, R37). -/
def WideType.ofBit (t : Bool) : WideType := if t then .h else .s

/-- The rounding mode that the bit `SR` of a command word selects (R35, R37). -/
def RoundMode.ofBit (sr : Bool) : RoundMode := if sr then .sr else .rne

@[simp] theorem WideType.ofBit_beq_h (T : WideType) : WideType.ofBit (T == .h) = T := by cases T <;> rfl

@[simp] theorem WideType.beq_h_ofBit (t : Bool) : (WideType.ofBit t == .h) = t := by cases t <;> rfl

@[simp] theorem RoundMode.ofBit_beq_sr (rm : RoundMode) : RoundMode.ofBit (rm == .sr) = rm := by cases rm <;> rfl

@[simp] theorem RoundMode.beq_sr_ofBit (sr : Bool) : (RoundMode.ofBit sr == .sr) = sr := by cases sr <;> rfl

theorem encode_enc (T : WideType) (rm : RoundMode) (f : Format) (clip : Bool) :
    encode (Instr.enc T rm f clip) = packCmd false (T == .h) (rm == .sr) clip f := by
  cases T <;> cases rm <;> rfl

theorem encode_dec (T : WideType) (f : Format) : encode (Instr.dec T f) = packCmd true (T == .h) false false f := by
  cases T <;> rfl

theorem enc_format (T : WideType) (rm : RoundMode) (f : Format) (clip : Bool) : (Instr.enc T rm f clip).format = f := by
  cases T <;> cases rm <;> rfl

theorem dec_format (T : WideType) (f : Format) : (Instr.dec T f).format = f := by
  cases T <;> rfl

section Decode
variable {w : Cmd}

/-- The reserved bits 15:11 as a field of the word. -/
theorem slice_reserved_eq_zero_iff (w : Cmd) : slice w.toNat 15 11 = 0 ↔ w.extractLsb' 11 5 = 0#5 := by
  rw [← BitVec.toNat_inj, BitVec.extractLsb'_toNat]; rfl

theorem cmdFormat_eq (w : Cmd) :
    cmdFormat w = { wm := (w.extractLsb' 5 3).toNat, we := (w.extractLsb' 8 3).toNat, nzn := w.getLsbD 3 } := by
  rw [BitVec.extractLsb'_toNat, BitVec.extractLsb'_toNat]; rfl

theorem decode_of_reserved (h : w.extractLsb' 11 5 ≠ 0#5) : decode w = .error .reservedBits :=
  if_pos (mt (slice_reserved_eq_zero_iff w).1 h)

theorem decode_of_op_clear (h : w.extractLsb' 11 5 = 0#5) (hop : w.getLsbD 0 = false) :
    decode w = .ok (Instr.enc (.ofBit (w.getLsbD 1)) (.ofBit (w.getLsbD 2)) (cmdFormat w) (w.getLsbD 4)) := by
  rw [decode, if_neg (not_not.2 ((slice_reserved_eq_zero_iff w).2 h)), hop]
  cases w.getLsbD 1 <;> cases w.getLsbD 2 <;> rfl

theorem decode_of_op_set (h : w.extractLsb' 11 5 = 0#5) (hop : w.getLsbD 0 = true) :
    decode w = .ok (Instr.dec (.ofBit (w.getLsbD 1)) (cmdFormat w)) := by
  rw [decode, if_neg (not_not.2 ((slice_reserved_eq_zero_iff w).2 h)), hop]
  cases w.getLsbD 1 <;> rfl

/-- A word without reserved bits is an operation with the word's format. -/
theorem exists_decode_ok (h : w.extractLsb' 11 5 = 0#5) : ∃ i, decode w = .ok i ∧ i.format = cmdFormat w := by
  cases hop : w.getLsbD 0 with
  | false => exact ⟨_, decode_of_op_clear h hop, enc_format ..⟩
  | true => exact ⟨_, decode_of_op_set h hop, dec_format ..⟩

theorem reserved_eq_zero_of_decode {i : Instr} (h : decode w = .ok i) : w.extractLsb' 11 5 = 0#5 := by
  by_contra hres
  rw [decode_of_reserved hres] at h
  cases h

end Decode

/-- A mask keeps a field in which it is all ones. -/
theorem extractLsb'_and_of_allOnes {w m : Cmd} {start len : Nat} (h : m.extractLsb' start len = BitVec.allOnes len) :
    (w &&& m).extractLsb' start len = w.extractLsb' start len := by
  rw [BitVec.extractLsb'_and, h, BitVec.and_allOnes]

/-- A mask keeps a bit that is set in it. -/
theorem getLsbD_and_of_set {w m : Cmd} {k : Nat} (h : m.getLsbD k = true) : (w &&& m).getLsbD k = w.getLsbD k := by
  rw [BitVec.getLsbD_and, h, Bool.and_true]

/-- The mask of an `ENC` row (R41) keeps the reserved bits and the bits `OP`, `T`, `SR`, which the row's `match` gives. -/
theorem decode_of_and_encMask {w m : Cmd} (h : w &&& 0xF807#16 = m) (hres : m.extractLsb' 11 5 = 0#5)
    (hop : m.getLsbD 0 = false) :
    decode w = .ok (Instr.enc (.ofBit (m.getLsbD 1)) (.ofBit (m.getLsbD 2)) (cmdFormat w) (w.getLsbD 4)) := by
  subst h
  rw [extractLsb'_and_of_allOnes rfl] at hres
  rw [getLsbD_and_of_set rfl] at hop
  rw [decode_of_op_clear hres hop, getLsbD_and_of_set rfl, getLsbD_and_of_set rfl]

/-- The mask of a `DEC` row (R41) keeps the reserved bits and the bits `OP`, `T`, which the row's `match` gives. -/
theorem decode_of_and_decMask {w m : Cmd} (h : w &&& 0xF803#16 = m) (hres : m.extractLsb' 11 5 = 0#5)
    (hop : m.getLsbD 0 = true) : decode w = .ok (Instr.dec (.ofBit (m.getLsbD 1)) (cmdFormat w)) := by
  subst h
  rw [extractLsb'_and_of_allOnes rfl] at hres
  rw [getLsbD_and_of_set rfl] at hop
  rw [decode_of_op_set hres hop, getLsbD_and_of_set rfl]

/-- Settles O3: a row's mask fixes the reserved bits and the row's opcode bits, and the other fields are the word's own. -/
theorem tableRowsDecode : Obligations.TableRowsDecode := by
  intro w f
  rw [show f = cmdFormat w from (cmdFormat_eq w).symm]
  exact ⟨fun h => decode_of_and_encMask h rfl rfl, fun h => decode_of_and_encMask h rfl rfl,
    fun h => decode_of_and_encMask h rfl rfl, fun h => decode_of_and_encMask h rfl rfl,
    fun h => decode_of_and_decMask h rfl rfl, fun h => decode_of_and_decMask h rfl rfl⟩

section Pack

theorem or_shiftLeft_eq_add {a k : Nat} (b : Nat) (h : a < 2 ^ k) : a ||| b <<< k = a + b * 2 ^ k := by
  rw [Nat.or_comm, ← Nat.shiftLeft_add_eq_or_of_lt h, Nat.shiftLeft_eq, add_comm]

/-- The fields of a command word do not overlap: they add up to the word (R37). -/
theorem packCmd_toNat (op t sr clip : Bool) {f : Format} (hwm : f.wm < 8) (hwe : f.we < 8) :
    (packCmd op t sr clip f).toNat =
      op.toNat + t.toNat * 2 + sr.toNat * 4 + f.nzn.toNat * 8 + clip.toNat * 16 + f.wm * 32 + f.we * 256 := by
  have hbit (b : Bool) : b.toNat < 2 := Bool.toNat_lt b
  have hop := hbit op
  have ht := hbit t
  have hsr := hbit sr
  have hnzn := hbit f.nzn
  have hclip := hbit clip
  have hfield (v k : Nat) (h : v * 2 ^ k < 2 ^ 16) : v <<< k % 2 ^ 16 = v <<< k := by
    rw [Nat.shiftLeft_eq, Nat.mod_eq_of_lt h]
  simp only [packCmd, BitVec.toNat_or, BitVec.toNat_shiftLeft, BitVec.toNat_setWidth, BitVec.toNat_ofBool, BitVec.toNat_ofNat]
  rw [Nat.mod_eq_of_lt (a := op.toNat), Nat.mod_eq_of_lt (a := t.toNat), Nat.mod_eq_of_lt (a := sr.toNat),
    Nat.mod_eq_of_lt (a := f.nzn.toNat), Nat.mod_eq_of_lt (a := clip.toNat), Nat.mod_eq_of_lt (a := f.wm),
    Nat.mod_eq_of_lt (a := f.we), hfield, hfield, hfield, hfield, hfield, hfield, or_shiftLeft_eq_add (k := 1),
    or_shiftLeft_eq_add (k := 2), or_shiftLeft_eq_add (k := 3), or_shiftLeft_eq_add (k := 4), or_shiftLeft_eq_add (k := 5),
    or_shiftLeft_eq_add (k := 8)] <;> omega

theorem toNat_getLsbD (w : Cmd) (k : Nat) : (w.getLsbD k).toNat = w.toNat / 2 ^ k % 2 := Nat.toNat_testBit _ _

theorem getLsbD_eq_iff (w : Cmd) (k : Nat) (b : Bool) : w.getLsbD k = b ↔ w.toNat / 2 ^ k % 2 = b.toNat := by
  rw [← toNat_getLsbD]
  cases w.getLsbD k <;> cases b <;> decide

/-- The fields that are read from a packed word are those it was packed from. -/
theorem fields_packCmd (op t sr clip : Bool) {f : Format} (hwm : f.wm < 8) (hwe : f.we < 8) :
    (packCmd op t sr clip f).extractLsb' 11 5 = 0#5 ∧ (packCmd op t sr clip f).getLsbD 0 = op ∧
    (packCmd op t sr clip f).getLsbD 1 = t ∧ (packCmd op t sr clip f).getLsbD 2 = sr ∧
    (packCmd op t sr clip f).getLsbD 4 = clip ∧ cmdFormat (packCmd op t sr clip f) = f := by
  have hw := packCmd_toNat op t sr clip hwm hwe
  obtain ⟨wm, we, nzn⟩ := f
  dsimp only at hwm hwe hw
  have hop := Bool.toNat_lt op
  have ht := Bool.toNat_lt t
  have hsr := Bool.toNat_lt sr
  have hnzn := Bool.toNat_lt nzn
  have hclip := Bool.toNat_lt clip
  rw [← slice_reserved_eq_zero_iff, cmdFormat, Format.mk.injEq]
  simp only [getLsbD_eq_iff, slice, Nat.shiftRight_eq_div_pow, hw]
  omega

/-- A word without reserved bits is packed from its fields. -/
theorem packCmd_fields {w : Cmd} (h : w.extractLsb' 11 5 = 0#5) :
    packCmd (w.getLsbD 0) (w.getLsbD 1) (w.getLsbD 2) (w.getLsbD 4) (cmdFormat w) = w := by
  have hres : w.toNat / 2 ^ 11 % 2 ^ 5 = 0 := by
    rw [← Nat.shiftRight_eq_div_pow]; exact (slice_reserved_eq_zero_iff w).2 h
  have hwm : (cmdFormat w).wm = w.toNat / 2 ^ 5 % 2 ^ 3 := congrArg (· % 2 ^ 3) (Nat.shiftRight_eq_div_pow _ _)
  have hwe : (cmdFormat w).we = w.toNat / 2 ^ 8 % 2 ^ 3 := congrArg (· % 2 ^ 3) (Nat.shiftRight_eq_div_pow _ _)
  have hnzn : (cmdFormat w).nzn = w.getLsbD 3 := rfl
  have hlt := w.isLt
  rw [← BitVec.toNat_inj, packCmd_toNat _ _ _ _ (by omega) (by omega), hwm, hwe, hnzn]
  simp only [toNat_getLsbD]
  omega

/-- Bits 2 and 4 of a word cleared, the other fields are as they were. -/
theorem fields_and_clearDecIgnored (w : Cmd) :
    (w &&& 0xFFEB#16).extractLsb' 11 5 = w.extractLsb' 11 5 ∧ (w &&& 0xFFEB#16).getLsbD 0 = w.getLsbD 0 ∧
    (w &&& 0xFFEB#16).getLsbD 1 = w.getLsbD 1 ∧ (w &&& 0xFFEB#16).getLsbD 2 = false ∧
    (w &&& 0xFFEB#16).getLsbD 4 = false ∧ cmdFormat (w &&& 0xFFEB#16) = cmdFormat w := by
  rw [cmdFormat_eq, cmdFormat_eq, extractLsb'_and_of_allOnes rfl, extractLsb'_and_of_allOnes rfl,
    extractLsb'_and_of_allOnes rfl]
  simp

end Pack

theorem Format.width_lt_of_wf {f : Format} (h : f.wf = true) : f.wm < 8 ∧ f.we < 8 := by
  rcases (Format.wf_iff f).1 h with rfl | rfl | rfl | rfl <;> decide

/-- Settles O1: the opcode match reads the fields that were packed, and the format passes the checks of R40. -/
theorem decodeOfEncode : Obligations.DecodeOfEncode := by
  intro i hwf
  refine (decodeLegal_ok_iff _ _).2 ⟨?_, hwf⟩
  obtain ⟨T, rm, f, clip, rfl⟩ | ⟨T, f, rfl⟩ := i.eq_enc_or_dec
  · rw [Machine.enc_wf] at hwf
    obtain ⟨hwm, hwe⟩ := Format.width_lt_of_wf hwf
    obtain ⟨hres, hop, ht, hsr, hclip, hfmt⟩ := fields_packCmd false (T == .h) (rm == .sr) clip hwm hwe
    rw [encode_enc, decode_of_op_clear hres hop, ht, hsr, hclip, hfmt, WideType.ofBit_beq_h, RoundMode.ofBit_beq_sr]
  · rw [Machine.dec_wf] at hwf
    obtain ⟨hwm, hwe⟩ := Format.width_lt_of_wf hwf
    obtain ⟨hres, hop, ht, -, -, hfmt⟩ := fields_packCmd true (T == .h) false false hwm hwe
    rw [encode_dec, decode_of_op_set hres hop, ht, hfmt, WideType.ofBit_beq_h]

/-- Settles O2: the word is packed again from the fields it was decoded to; for a `DEC` word, the
word with bits 2 and 4 clear is. -/
theorem encodeOfDecode : Obligations.EncodeOfDecode := by
  intro w i h
  obtain ⟨hdecode, hwf⟩ := (decodeLegal_ok_iff _ _).1 h
  refine ⟨hwf, ?_⟩
  have hres := reserved_eq_zero_of_decode hdecode
  cases hop : w.getLsbD 0 with
  | false =>
    obtain rfl : _ = i := Except.ok.inj ((decode_of_op_clear hres hop).symm.trans hdecode)
    have hpack := packCmd_fields hres
    rw [hop] at hpack
    simpa [encode_enc] using hpack
  | true =>
    obtain rfl : _ = i := Except.ok.inj ((decode_of_op_set hres hop).symm.trans hdecode)
    obtain ⟨hres', hop', ht', hsr', hclip', hfmt'⟩ := fields_and_clearDecIgnored w
    have hpack := packCmd_fields (hres'.trans hres)
    rw [hop', hop, ht', hsr', hclip', hfmt'] at hpack
    simpa [encode_dec] using hpack

/-- Settles O4: eight closed words. -/
theorem specWordsDecode : Obligations.SpecWordsDecode := by
  unfold Obligations.SpecWordsDecode
  decide
end Sys2Proof
end

section
/-! PROOFS. Which operations execute, and what they leave on `dst` (30_encoding.md R36, R38 to R40, R42). -/

namespace Sys2Proof.Machine

/-- Settles O7: an operation whose format passes the checks of R40 drives `dst` with its value. -/
theorem legalOperationsComplete : Obligations.LegalOperationsComplete := fun _ _ hwf => exec_next_iff.2 ⟨hwf, rfl⟩

/-- The first failing check of R40 on an illegal format. -/
theorem legality_of_illegal {f : Format} (h : f.wf = false) :
    legality f = some (if f.wm + f.we = 7 then .formatNotAdmitted else .widthSum) := by
  rw [legality]
  by_cases hsum : f.wm + f.we = 7
  · have hadm : Config.formats.contains (f.wm, f.we) = false := by
      rwa [Format.wf, Format.widthSumOk, hsum, beq_self_eq_true, Bool.true_and] at h
    rw [if_neg (not_not.2 hsum), hadm, if_pos hsum, if_neg Bool.false_ne_true]
  · rw [if_pos hsum, if_neg hsum]

/-- Settles O8, by the first failing check. -/
theorem illegalOperationsAreRefused : Obligations.IllegalOperationsAreRefused := by
  intro i s h
  rw [exec_eq_produce, produce_of_illegal (legality_of_illegal h)]
  split <;> rfl

/-- Settles O9: a legal word is that of an operation, which completes whatever its operands. -/
theorem dataOperandsAreNeverIllegal : Obligations.DataOperandsAreNeverIllegal := by
  rintro w ⟨i, hi⟩ src rng dst
  exact ⟨_, step_next_iff.2 ⟨i, hi, rfl⟩⟩

/-- The two operand checks of R40 as one condition. -/
theorem format_wf_iff_sum_and_mem (f : Format) : f.wf = true ↔ f.wm + f.we = 7 ∧ (f.wm, f.we) ∈ Config.formats := by
  simp [Format.wf, Format.widthSumOk, Format.admitted]

/-- A word without reserved bits whose format fails a check is refused by the first that fails. -/
theorem step_of_illegal_format {s : State} (hres : s.cmd.extractLsb' 11 5 = 0#5) (h : (cmdFormat s.cmd).wf = false) :
    step s = .refused (if (cmdFormat s.cmd).wm + (cmdFormat s.cmd).we = 7 then .formatNotAdmitted else .widthSum) := by
  obtain ⟨i, hi, hfmt⟩ := exists_decode_ok hres
  rw [step_of_decode hi, ← hfmt]
  exact illegalOperationsAreRefused i s (by rwa [Instr.wf, hfmt])

/-- A word without reserved bits whose format passes the checks is legal. -/
theorem exists_decodeLegal_ok {w : Cmd} (hres : w.extractLsb' 11 5 = 0#5) (h : (cmdFormat w).wf = true) :
    ∃ i, decodeLegal w = .ok i := by
  obtain ⟨i, hi, hfmt⟩ := exists_decode_ok hres
  exact ⟨i, (decodeLegal_ok_iff _ _).2 ⟨hi, by rwa [Instr.wf, hfmt]⟩⟩

/-- Settles O5: the reserved bits are looked at by the opcode match, the format by the operation. -/
theorem illegalWordsAreRefusedInOrder : Obligations.IllegalWordsAreRefusedInOrder := by
  intro w src rng dst reserved wm we
  have hzero : reserved = 0 ↔ w.extractLsb' 11 5 = 0#5 := by rw [← BitVec.toNat_inj]; rfl
  have hfmt : cmdFormat w = { wm := wm, we := we, nzn := w.getLsbD 3 } := cmdFormat_eq w
  have hwf : (cmdFormat w).wf = true ↔ wm + we = 7 ∧ (wm, we) ∈ Config.formats := by
    rw [format_wf_iff_sum_and_mem, hfmt]
  refine ⟨fun hres => step_of_decode_error (s := ⟨w, src, rng, dst⟩) (decode_of_reserved (mt hzero.2 hres)),
    fun hres hsum => ?_, fun hres hsum hmem => ?_, fun hres hsum hmem => ?_⟩
  · have hill : (cmdFormat w).wf = false := by
      rw [Bool.eq_false_iff, Ne, hwf]; exact fun h => hsum h.1
    rw [step_of_illegal_format (s := ⟨w, src, rng, dst⟩) (hzero.1 hres) hill, hfmt, if_neg hsum]
  · have hill : (cmdFormat w).wf = false := by
      rw [Bool.eq_false_iff, Ne, hwf]; exact fun h => hmem h.2
    rw [step_of_illegal_format (s := ⟨w, src, rng, dst⟩) (hzero.1 hres) hill, hfmt, if_pos hsum]
  · exact dataOperandsAreNeverIllegal w (exists_decodeLegal_ok (hzero.1 hres) (hwf.2 ⟨hsum, hmem⟩)) src rng dst

theorem narrowResult_toNat (y : Nat) : (narrowResult y).toNat = y % 2 ^ 8 := by
  rw [narrowResult, BitVec.toNat_setWidth, BitVec.toNat_ofNat]
  omega

theorem wideResult_toNat (T : WideType) (w : Nat) : (wideResult T w).toNat = w % 2 ^ T.width := by
  rw [wideResult, BitVec.toNat_setWidth, BitVec.toNat_ofNat]
  cases T <;> simp only [WideType.width] <;> omega

theorem resultWidth_enc (T : WideType) (rm : RoundMode) (f : Format) (clip : Bool) :
    resultWidth (Instr.enc T rm f clip) = 8 := by
  cases T <;> cases rm <;> rfl

theorem resultWidth_dec (T : WideType) (f : Format) : resultWidth (Instr.dec T f) = T.width := by
  cases T <;> rfl

/-- Settles O13: a narrow result is 8 bits wide and a wide one has the width of its type. -/
theorem resultsAreZeroExtended : Obligations.ResultsAreZeroExtended := by
  intro i s hwf
  refine ⟨_, legalOperationsComplete i s hwf, ?_⟩
  obtain ⟨T, rm, f, clip, rfl⟩ | ⟨T, f, rfl⟩ := i.eq_enc_or_dec
  · rw [enc_value, resultWidth_enc, narrowResult_toNat]; exact Nat.mod_lt _ (Nat.two_pow_pos _)
  · rw [dec_value, resultWidth_dec, wideResult_toNat]; exact Nat.mod_lt _ (Nat.two_pow_pos _)

/-- Settles O15: a step drives `dst` with the value of `F` for its ports, and leaves the ports it is a function of. -/
theorem stepSettlesTheOutput : Obligations.StepSettlesTheOutput := by
  intro s t h v hv
  obtain ⟨u, hu, rfl⟩ := step_next_iff_coreFunction.1 h
  exact Except.ok.inj (hu.symm.trans hv)

end Sys2Proof.Machine
end

section
/-! PROOFS. The stochastic encoder (40_formats.md R57, 42_rounding.md R87): the lower candidate, its fraction field, and the
candidate the random bits choose. -/

namespace Sys2Proof.Machine

/-- Between two neighbouring patterns the lower candidate is the lower pattern, cut at `cmax + 1`. -/
theorem isLowerCandidate_iff {f : Format} {v b : Nat} (hlo : narrowMag f b ≤ v) (hhi : v < narrowMag f (b + 1)) (d : Nat) :
    IsLowerCandidate f v d ↔ d = min b (f.cmax + 1) := by
  have hmono := narrowMag_strictMono f
  constructor
  · rintro ⟨hd, hdlo, hdhi⟩
    have hdb : d < b + 1 := hmono.lt_iff_lt.1 (hdlo.trans_lt hhi)
    by_cases hin : d ≤ f.cmax
    · have hbd : b < d + 1 := hmono.lt_iff_lt.1 (hlo.trans_lt (hdhi hin))
      omega
    · omega
  · rintro rfl
    refine ⟨min_le_right _ _, (hmono.monotone (min_le_left _ _)).trans hlo, fun hin => ?_⟩
    rwa [min_eq_left (by omega)]

/-- An input that is a pattern's number is not rounded, whatever the random bits (R87). -/
theorem stochasticChoice_narrowMag (f : Format) (drop rng c : Nat) : stochasticChoice f drop (narrowMag f c) rng c = c := by
  have hrng : rng % 2 ^ drop < 2 ^ drop := Nat.mod_lt _ (Nat.two_pow_pos _)
  have hfield : fractionField f drop (narrowMag f c) c = 0 := by simp [fractionField]
  rw [stochasticChoice, hfield, if_neg (by omega)]

theorem roundedPattern_positive_zero (f : Format) (clip : Bool) : roundedPattern f clip 0 0 = 0 := by
  simp [roundedPattern]

section Stochastic
variable {f : Format} (hf : f.defined = true) (T : WideType) (rng x : Nat)
include hf

/-- The input lies between its lower pattern and the next one. -/
theorem lowerPattern_bracket :
    narrowMag f (lowerPattern T f x) ≤ wideMag T x ∧ wideMag T x < narrowMag f (lowerPattern T f x + 1) := by
  obtain ⟨unit, hunit, hinput, hupper⟩ := candidate_magnitudes hf T .sr 0 x
  have hrem : (roundIn T f .sr 0 x).remainder < 2 ^ (roundIn T f .sr 0 x).discarded := Nat.mod_lt _ (Nat.two_pow_pos _)
  have := Nat.mul_lt_mul_of_pos_right hrem hunit
  omega

/-- The fraction of the way to the upper candidate is the discarded field of the aligned mantissa (R87). -/
theorem fractionField_lowerPattern :
    fractionField f (dropWidth T f) (wideMag T x) (lowerPattern T f x) =
      (roundIn T f .sr rng x).mant % 2 ^ dropWidth T f := by
  obtain ⟨unit, hunit, hinput, hupper⟩ := candidate_magnitudes hf T .sr rng x
  have ha := roundIn_aligned hf T .sr rng x
  have hfield := ha.mant_mod
  rw [fractionField, hinput, hupper, Nat.add_sub_cancel_left, Nat.add_sub_cancel_left, ← mul_assoc,
    Nat.mul_div_mul_right _ _ hunit]
  refine Eq.trans ?_ hfield.symm
  show 2 ^ (roundIn T f .sr rng x).drop * _ / _ = _
  rcases ha.cases with ⟨e, he, hD, -⟩ | ⟨he, hD, -⟩
  · rw [if_neg (by omega), he, Int.toNat_natCast, hD, pow_add, Nat.mul_div_mul_left _ _ (Nat.two_pow_pos _)]
  · rw [if_pos he, hD, pow_succ, mul_assoc, Nat.mul_div_cancel_left _ (Nat.two_pow_pos _)]

/-- The unit carries into the upper candidate when the field and the random bits reach `2^drop` together (R87). -/
theorem roundIn_sr_retained :
    (roundIn T f .sr rng x).retained = (roundIn T f .sr rng x).quotient +
      if 2 ^ dropWidth T f ≤ (roundIn T f .sr rng x).mant % 2 ^ dropWidth T f + rng % 2 ^ dropWidth T f then 1 else 0 := by
  have hadd : (roundIn T f .sr rng x).addend = rng % 2 ^ dropWidth T f := Nat.and_two_pow_sub_one_eq_mod rng _
  have hfield : (roundIn T f .sr rng x).mant % 2 ^ dropWidth T f < 2 ^ dropWidth T f := Nat.mod_lt _ (Nat.two_pow_pos _)
  have hrng : rng % 2 ^ dropWidth T f < 2 ^ dropWidth T f := Nat.mod_lt _ (Nat.two_pow_pos _)
  have hdrop : (roundIn T f .sr rng x).drop = dropWidth T f := rfl
  rw [RoundIn.retained_eq, (roundIn_aligned hf T .sr rng x).mant_div, hadd, hdrop]
  congr 1
  split
  · exact Nat.div_eq_of_lt_le (by omega) (by omega)
  · exact Nat.div_eq_of_lt (by omega)

/-- The pattern the unit makes, cut at `cmax + 1`, is the candidate that the random bits choose. -/
theorem stochasticChoice_lowerPattern :
    stochasticChoice f (dropWidth T f) (wideMag T x) rng (min (lowerPattern T f x) (f.cmax + 1)) =
      min (binade T f x * 2 ^ f.wm + (roundIn T f .sr rng x).retained) (f.cmax + 1) := by
  rw [roundIn_sr_retained hf, ← add_assoc, ← lowerPattern_eq T f .sr rng x, ← fractionField_lowerPattern hf T rng x,
    stochasticChoice]
  rcases Nat.lt_or_ge f.cmax (lowerPattern T f x) with htop | hin
  · rw [min_eq_right (by omega), min_eq_right (by omega), if_neg (by omega)]
  · rw [min_eq_left (by omega)]
    simp only [hin, true_and]
    split <;> omega

/-- The stochastic encoder of a finite input: the case table of R80 at the candidate the random bits choose. -/
theorem enc_sr_eq_roundedPattern (clip : Bool) (hfin : isSpecial T x = false) :
    enc T f clip .sr rng x = roundedPattern f clip (decompose T x).sign
      (stochasticChoice f (dropWidth T f) (wideMag T x) rng (min (lowerPattern T f x) (f.cmax + 1))) := by
  by_cases hx : x = 0
  · subst hx
    have hmag : wideMag T 0 = narrowMag f 0 := by rw [narrowMag_zero]; cases T <;> rfl
    have hlower : lowerPattern T f 0 = 0 := by
      have hle := (lowerPattern_bracket hf T 0).1
      rw [hmag, (narrowMag_strictMono f).le_iff_le] at hle
      exact Nat.le_zero.1 hle
    have hsign : (decompose T 0).sign = 0 := by cases T <;> rfl
    rw [hlower, Nat.zero_min, hmag, stochasticChoice_narrowMag, hsign, roundedPattern_positive_zero, enc,
      if_neg (by simp [hfin]), if_pos rfl]
  · rw [enc_eq_roundedPattern hf T .sr rng x clip hfin hx, stochasticChoice_lowerPattern hf]

end Stochastic

end Sys2Proof.Machine
end

section
/-! PROOFS. Decoding what the encoder makes (41_encoder.md R64, R80; 43_decoder.md R92, R100): the narrow patterns of R80's case
table and of special inputs. -/

namespace Sys2Proof.Machine

theorem decompose_sign_lt (T : WideType) (x : Nat) : (decompose T x).sign < 2 := Nat.mod_lt _ two_pos

/-- Without `nzn` the all-ones exponent field is the one after `max_exp`. -/
theorem maxExp_add_one_of_not_nzn {f : Format} (hf : f.defined = true) (h : f.nzn = false) : f.maxExp + 1 = 2 ^ f.we - 1 := by
  obtain ⟨nzn, rfl | rfl | rfl | rfl | rfl⟩ := Format.defined_cases hf <;> obtain rfl : nzn = false := h <;> rfl

/-- The infinity's pattern is the one after the largest finite pattern where the format has infinities. -/
theorem signedInf_zero_of_not_nzn {f : Format} (hf : f.defined = true) (h : f.nzn = false) : f.signedInf 0 = f.cmax + 1 := by
  obtain ⟨nzn, rfl | rfl | rfl | rfl | rfl⟩ := Format.defined_cases hf <;> obtain rfl : nzn = false := h <;> rfl

/-- Under `nzn` the pattern `signed_inf` is a finite one (log entry 6). -/
theorem signedInf_zero_of_nzn {f : Format} (hf : f.defined = true) (h : f.nzn = true) :
    f.signedInf 0 ≠ 0 ∧ f.signedInf 0 ≤ f.cmax := by
  obtain ⟨nzn, rfl | rfl | rfl | rfl | rfl⟩ := Format.defined_cases hf <;> obtain rfl : nzn = true := h <;> decide

theorem cmax_bounds {f : Format} (hf : f.defined = true) :
    0 < f.cmax ∧ f.cmax < 128 ∧ (f.nzn = false → f.cmax + 1 < 128) := by
  obtain ⟨nzn, rfl | rfl | rfl | rfl | rfl⟩ := Format.defined_cases hf <;> cases nzn <;> decide

theorem signedInf_eq_add (f : Format) (sign : Nat) : f.signedInf sign = sign * 128 + f.signedInf 0 := by
  simp [Format.signedInf, Nat.shiftLeft_eq]

/-- But for an overflow to an infinity the clip policy leaves a finite pattern, and no zero of an element that is not. -/
theorem clippedElement_finite {f : Format} (hf : f.defined = true) {clip : Bool} {c : Nat} (hc : c ≤ f.cmax + 1)
    (hfin : ¬(c = f.cmax + 1 ∧ clip = false ∧ f.nzn = false)) :
    clippedElement f clip c ≤ f.cmax ∧ (clippedElement f clip c = 0 → c = 0) := by
  by_cases htop : c = f.cmax + 1
  · subst htop
    cases clip with
    | false =>
      obtain ⟨hne, hle⟩ := signedInf_zero_of_nzn hf (by simpa using hfin)
      rw [clippedElement_noClip]
      exact ⟨hle, fun h => absurd h hne⟩
    | true =>
      have := (cmax_bounds hf).1
      rw [clippedElement_clip]
      exact ⟨le_rfl, fun h => by omega⟩
  · rw [clippedElement_of_le (by omega)]
    exact ⟨by omega, id⟩

theorem clippedElement_lt {f : Format} (hf : f.defined = true) (clip : Bool) {c : Nat} (hc : c ≤ f.cmax + 1) :
    clippedElement f clip c < 128 := by
  obtain ⟨-, hmax, hmaxInf⟩ := cmax_bounds hf
  by_cases hinf : c = f.cmax + 1 ∧ clip = false ∧ f.nzn = false
  · obtain ⟨rfl, rfl, hn⟩ := hinf
    rw [clippedElement_noClip, signedInf_zero_of_not_nzn hf hn]
    exact hmaxInf hn
  · exact (clippedElement_finite hf hc hinf).1.trans_lt hmax

/-- The case table of R80 as a sign and a magnitude. -/
theorem roundedPattern_eq {f : Format} (hf : f.defined = true) (clip : Bool) (sign : Nat) {c : Nat} (hc : c ≤ f.cmax + 1) :
    roundedPattern f clip sign c = (if c = 0 ∧ f.nzn = true then 0 else sign) * 128 + clippedElement f clip c := by
  have hor {m : Nat} (hm : m < 128) : sign <<< 7 ||| m = sign * 128 + m := by
    rw [← Nat.shiftLeft_add_eq_or_of_lt hm, Nat.shiftLeft_eq]
  obtain ⟨hpos, hmax, -⟩ := cmax_bounds hf
  rw [roundedPattern, clippedElement]
  by_cases htop : c = f.cmax + 1
  · rw [if_pos htop, if_pos htop, if_neg (show ¬(c = 0 ∧ f.nzn = true) by omega)]
    cases clip
    · exact signedInf_eq_add f sign
    · exact hor hmax
  rw [if_neg htop, if_neg htop]
  by_cases h0 : c = 0
  · subst h0
    cases hn : f.nzn <;> simp [Nat.shiftLeft_eq]
  · rw [if_neg h0, if_neg (by tauto), hor (by omega)]

/-- A magnitude up to `cmax` is finite, unless it is the NaN that stands for negative zero under `nzn`. -/
theorem isFinite_of_magnitude_le {f : Format} (hf : f.defined = true) {y : Nat} (hy : y < 256) (hmag : y % 128 ≤ f.cmax)
    (hnan : f.nzn = true → y ≠ 0x80) : isNarrowNaN f y = false ∧ isNarrowInf f y = false := by
  cases hn : f.nzn with
  | true => simp [isNarrowNaN, isNarrowInf, hn, hnan hn]
  | false =>
    have hexp : (narrowFields f y).exponent < f.maxExp + 1 := by
      rw [narrowFields_of_defined hf hy, Nat.div_lt_iff_lt_mul (Nat.two_pow_pos _), ← Format.cmax_add_one]
      exact Nat.lt_succ_of_le hmag
    have hne : (narrowFields f y).exponent ≠ 2 ^ f.we - 1 := by
      rw [maxExp_add_one_of_not_nzn hf hn] at hexp
      exact hexp.ne
    simp [isNarrowNaN, isNarrowInf, hn, hne]

/-- The pattern `signed_inf` has an all-ones exponent field, and what is added to it is its mantissa field (R63). -/
theorem narrowFields_signedInf {f : Format} (hf : f.defined = true) {sign m : Nat} (hs : sign < 2)
    (hm : m < 2 ^ f.wm) :
    narrowFields f (f.signedInf sign + m) = { sign := sign, exponent := 2 ^ f.we - 1, mantissa := m } ∧
    f.signedInf sign + m < 256 := by
  have hwidth : 2 ^ f.we * 2 ^ f.wm = 128 := by
    rw [← pow_add, add_comm, ((Format.defined_iff f).1 hf).1]; rfl
  have hlow : (2 ^ f.we - 1) * 2 ^ f.wm + m < 128 := by
    rw [Nat.sub_mul, one_mul, hwidth]
    have := Nat.le_mul_of_pos_left (2 ^ f.wm) (Nat.two_pow_pos f.we)
    omega
  have hy : f.signedInf sign + m = sign * 128 + ((2 ^ f.we - 1) * 2 ^ f.wm + m) := by
    rw [Format.signedInf, Nat.shiftLeft_eq, Nat.shiftLeft_eq, add_assoc]
  have hsign : (f.signedInf sign + m) / 128 = sign := by omega
  have hmag : (f.signedInf sign + m) % 128 = 2 ^ f.wm * (2 ^ f.we - 1) + m := by rw [mul_comm]; omega
  refine ⟨?_, by omega⟩
  rw [narrowFields_of_defined hf (by omega), hsign, hmag, Nat.mul_add_div (Nat.two_pow_pos _), Nat.div_eq_of_lt hm, add_zero,
    Nat.mul_add_mod, Nat.mod_eq_of_lt hm]

/-- Without `nzn` the patterns `signed_inf` decode to the wide infinities. -/
theorem dec_signedInf {f : Format} (hf : f.defined = true) (hn : f.nzn = false) (T : WideType) {sign : Nat} (hs : sign < 2) :
    dec T f (f.signedInf sign) = wideInf T sign := by
  obtain ⟨hfields, hlt⟩ := narrowFields_signedInf hf hs (Nat.two_pow_pos f.wm)
  rw [add_zero] at hfields hlt
  have hinf : isNarrowInf f (f.signedInf sign) = true := by simp [isNarrowInf, hn, hfields]
  have hsign : f.signedInf sign / 128 = sign := by
    rw [narrowFields_of_defined hf hlt] at hfields
    exact congrArg NarrowFields.sign hfields
  rw [dec, (decoderIsExactWhereDefined T f _ _ hf hlt).2.1 hinf, hsign]

/-- Without `nzn` the pattern after `signed_inf` decodes to `DEC_NAN_T`. -/
theorem dec_signedInf_add_one {f : Format} (hf : f.defined = true) (hn : f.nzn = false) (T : WideType) {sign : Nat}
    (hs : sign < 2) : dec T f (f.signedInf sign + 1) = decNan T := by
  have hwm := ((Format.defined_iff f).1 hf).2.1
  obtain ⟨hfields, hlt⟩ := narrowFields_signedInf hf hs (m := 1) (Nat.one_lt_two_pow (by omega))
  have hnan : isNarrowNaN f (f.signedInf sign + 1) = true := by simp [isNarrowNaN, hn, hfields]
  exact (decoderIsExactWhereDefined T f _ _ hf hlt).1 hnan

/-- Under `nzn` the one NaN pattern decodes to `DEC_NAN_T`. -/
theorem dec_nznNaN {f : Format} (hf : f.defined = true) (hn : f.nzn = true) (T : WideType) : dec T f 0x80 = decNan T :=
  (decoderIsExactWhereDefined T f _ 0x80 hf (by decide)).1 (by simp [isNarrowNaN, hn])

section Rounded
variable {f : Format} (hf : f.defined = true) (clip : Bool) {sign c : Nat} (hs : sign < 2) (hc : c ≤ f.cmax + 1)
include hf hs hc

/-- Sign and magnitude of a rounded pattern, which fits a byte. -/
theorem roundedPattern_sign_magnitude :
    roundedPattern f clip sign c < 256 ∧ roundedPattern f clip sign c / 128 = (if c = 0 ∧ f.nzn = true then 0 else sign) ∧
    roundedPattern f clip sign c % 128 = clippedElement f clip c := by
  have hlt := clippedElement_lt hf clip hc
  rw [roundedPattern_eq hf clip sign hc]
  split <;> omega

/-- A rounded pattern decodes to the wide value of its element: the infinities by their pattern, every other one exactly. -/
theorem isDequantized_dec (T : WideType) : IsDequantized T f clip sign c (dec T f (roundedPattern f clip sign c)) := by
  obtain ⟨hlt, hsign, hmag⟩ := roundedPattern_sign_magnitude hf clip hs hc
  rw [IsDequantized]
  split
  · rename_i hinf
    obtain ⟨rfl, rfl, hn⟩ := hinf
    rw [roundedPattern, if_pos rfl]
    exact dec_signedInf hf hn T hs
  · rename_i hfin
    obtain ⟨hle, hzero⟩ := clippedElement_finite hf hc hfin
    have hne (hn : f.nzn = true) : roundedPattern f clip sign c ≠ 0x80 := by
      intro h80
      have h0 : c = 0 := hzero (by rw [← hmag, h80])
      rw [h80, if_pos ⟨h0, hn⟩] at hsign
      exact absurd hsign (by decide)
    obtain ⟨hnan, hinf⟩ := isFinite_of_magnitude_le hf hlt (hmag.trans_le hle) hne
    obtain ⟨hwidth, hspecial, hsgn, hval⟩ := decWith_exact hf hlt (decNan T) T hnan hinf
    exact ⟨hwidth, hspecial, hsgn.trans hsign, hval.trans (congrArg _ hmag)⟩

end Rounded

end Sys2Proof.Machine
end

section
/-! PROOFS. The pseudo-operation `QDQ` (30_encoding.md R44): the host's two lines, and their values. -/

namespace Sys2Proof.Machine

theorem walkLines_cons {s t : State} {bound : List (Nat × Word)} {l : Line} {p : Presentation} (rest : List Line)
    (h : l.presents bound = some p) (hstep : step (p.drive s) = .next t) :
    walkLines s bound (l :: rest) = walkLines t (l.bind bound t.dst) rest := by
  rw [walkLines, h]
  simp only [hstep]

/-- The command word of a legal operation runs to the operation's value. -/
theorem step_drive_encode {i : Instr} (hwf : i.wf = true) (src rng : Word) (s : State) :
    step (Presentation.drive ⟨encode i, src, rng⟩ s) =
      .next ((Presentation.drive ⟨encode i, src, rng⟩ s).setDst (i.value src rng)) :=
  step_next_iff.2 ⟨i, decodeOfEncode i hwf, rfl⟩

/-- A deterministic encode operation does not read `rng` (R39). -/
theorem enc_rne_value_congr (T : WideType) (f : Format) (clip : Bool) (src rng rng' : Word) :
    (Instr.enc T .rne f clip).value src rng = (Instr.enc T .rne f clip).value src rng' := by
  rw [enc_value, enc_value]

/-- The second line of `QDQ` decodes what the first one bound. -/
theorem walkLines_decodeLine (T : WideType) {f : Format} (hwf : f.wf = true) (v : Word) (s : State) (bound : List (Nat × Word)) :
    walkLines s ((0, v) :: bound) [{ name := some 1, instr := Instr.dec T f, src := .name 0, rng := none }] =
      some (.next ((1, (Instr.dec T f).value v 0#32) :: (0, v) :: bound)) :=
  walkLines_cons [] rfl (step_drive_encode (by rwa [dec_wf]) v 0#32 s)

/-- `QDQ` encodes its source and decodes the result, whatever the ports showed before. -/
theorem walkLines_qdq (T : WideType) (rm : RoundMode) {f : Format} (hwf : f.wf = true) (clip : Bool) (src rng : Word) (s : State)
    (bound : List (Nat × Word)) :
    walkLines s bound (qdq T rm f clip (.lit src) (.lit rng)) = some (.next
      ((1, (Instr.dec T f).value ((Instr.enc T rm f clip).value src rng) 0#32) ::
       (0, (Instr.enc T rm f clip).value src rng) :: bound)) := by
  have henc : (Instr.enc T rm f clip).wf = true := by rwa [enc_wf]
  cases rm with
  | rne =>
    rw [enc_rne_value_congr T f clip src rng 0#32, qdq, walkLines_cons _ rfl (step_drive_encode henc src 0#32 s)]
    exact walkLines_decodeLine T hwf _ _ bound
  | sr =>
    rw [qdq, walkLines_cons _ rfl (step_drive_encode henc src rng s)]
    exact walkLines_decodeLine T hwf _ _ bound

theorem narrowResult_eq_ofNat {y : Nat} (hy : y < 256) : narrowResult y = BitVec.ofNat 32 y := by
  rw [← BitVec.toNat_inj, narrowResult_toNat, BitVec.toNat_ofNat]
  omega

theorem wideResult_eq_ofNat {T : WideType} {w : Nat} (hw : w < 2 ^ T.width) : wideResult T w = BitVec.ofNat 32 w := by
  have hle : 2 ^ T.width ≤ 2 ^ 32 := by cases T <;> decide
  rw [← BitVec.toNat_inj, wideResult_toNat, BitVec.toNat_ofNat, Nat.mod_eq_of_lt hw, Nat.mod_eq_of_lt (hw.trans_le hle)]

theorem narrowOperand_narrowResult {y : Nat} (hy : y < 256) : narrowOperand (narrowResult y) = y := by
  rw [narrowOperand_eq_mod, narrowResult_toNat]
  omega

/-- The random operand of an encode operation as the encoder takes it (R76 to R79). -/
def randomOperand (rm : RoundMode) (rng : Word) : Nat :=
  match rm with
  | .rne => 0
  | .sr => rng.toNat

/-- `QDQ` of a source that is encoded to `y` binds `y` and what `y` decodes to. -/
theorem walkLines_qdq_of_enc {T : WideType} {rm : RoundMode} {f : Format} (hwf : f.wf = true) {clip : Bool}
    {src rng : Word} {y : Nat} (henc : enc T f clip rm (randomOperand rm rng) (wideOperand T src) = y) (hy : y < 256)
    (s : State) (bound : List (Nat × Word)) :
    walkLines s bound (qdq T rm f clip (.lit src) (.lit rng)) = some (.next
      ((1, wideResult T (dec T f y)) :: (0, BitVec.ofNat 32 y) :: bound)) := by
  have hvalue : (Instr.enc T rm f clip).value src rng = narrowResult y := by
    rw [enc_value, ← henc]
    cases rm <;> rfl
  rw [walkLines_qdq T rm hwf, hvalue, dec_value, narrowOperand_narrowResult hy, narrowResult_eq_ofNat hy]

theorem wideInf_lt (T : WideType) {sign : Nat} (hs : sign < 2) : wideInf T sign < 2 ^ T.width := by
  interval_cases sign <;> cases T <;> decide

theorem isDequantized_lt {T : WideType} {f : Format} {clip : Bool} {sign c d : Nat} (hs : sign < 2)
    (h : IsDequantized T f clip sign c d) : d < 2 ^ T.width := by
  rw [IsDequantized] at h
  split at h
  · exact h ▸ wideInf_lt T hs
  · exact h.1

/-- `QDQ` of a source that is encoded to the rounded pattern of `c`, in either rounding mode. -/
theorem qdq_of_roundedPattern {T : WideType} {rm : RoundMode} {f : Format} (hwf : f.wf = true) {clip : Bool} {src rng : Word}
    {sign c : Nat} (hs : sign < 2) (hc : c ≤ f.cmax + 1)
    (henc : enc T f clip rm (randomOperand rm rng) (wideOperand T src) = roundedPattern f clip sign c) (s : State)
    (bound : List (Nat × Word)) :
    ∃ d, walkLines s bound (qdq T rm f clip (.lit src) (.lit rng)) =
        some (.next ((1, d) :: (0, BitVec.ofNat 32 (roundedPattern f clip sign c)) :: bound)) ∧
      IsDequantized T f clip sign c d.toNat := by
  have hf := Format.defined_of_wf hwf
  have hdec := isDequantized_dec hf clip hs hc T
  refine ⟨_, walkLines_qdq_of_enc hwf henc (roundedPattern_sign_magnitude hf clip hs hc).1 s bound, ?_⟩
  rwa [wideResult_toNat, Nat.mod_eq_of_lt (isDequantized_lt hs hdec)]

theorem wideOperand_lt (T : WideType) (src : Word) : wideOperand T src < 2 ^ T.width := by
  rw [wideOperand_eq_mod]; exact Nat.mod_lt _ (Nat.two_pow_pos _)

/-- Settles O46: the encoder's result is the rounded pattern of the one nearest element (O31), which decodes exactly. -/
theorem quantizeDequantizeIsNearest : Obligations.QuantizeDequantizeIsNearest := by
  intro T f clip src rng s bound c hwf hfin hc sign
  obtain ⟨n, hnearest, henc⟩ :=
    rneEncoderIsNearestEvenWhereDefined T f clip _ (Format.defined_of_wf hwf) (wideOperand_lt T src) hfin
  obtain rfl : c = n := (hnearest c).1 hc
  exact qdq_of_roundedPattern (rm := .rne) hwf (decompose_sign_lt T _) hc.1 henc s bound

theorem stochasticChoice_le {f : Format} {drop v rng c : Nat} (hc : c ≤ f.cmax + 1) :
    stochasticChoice f drop v rng c ≤ f.cmax + 1 := by
  rw [stochasticChoice]
  split <;> omega

/-- Settles O47: the lower candidate is the input's lower pattern, from which the encoder takes the candidate the random bits
choose; it decodes exactly. -/
theorem quantizeDequantizeSrTakesABracketingCandidate : Obligations.QuantizeDequantizeSrTakesABracketingCandidate := by
  intro T f clip src rng s bound c hwf hfin hc sign k
  have hf := Format.defined_of_wf hwf
  obtain ⟨hlo, hhi⟩ := lowerPattern_bracket hf T (wideOperand T src)
  have hlower := (isLowerCandidate_iff hlo hhi c).1 hc
  have henc := enc_sr_eq_roundedPattern hf T rng.toNat (wideOperand T src) clip hfin
  rw [← hlower] at henc
  exact qdq_of_roundedPattern (rm := .sr) hwf (decompose_sign_lt T _) (stochasticChoice_le hc.1) henc s bound

/-- What a special input is encoded to (R64) and then decoded to (R92): a NaN, or without `nzn` the infinity it was. -/
theorem dec_encodeSpecial {f : Format} (hf : f.defined = true) (T : WideType) {w : WideFields} (hs : w.sign < 2) :
    encodeSpecial f w < 256 ∧
    dec T f (encodeSpecial f w) = if f.nzn = true ∨ w.mantissa ≠ 0 then decNan T else wideInf T w.sign := by
  have hwm := ((Format.defined_iff f).1 hf).2.1
  rw [encodeSpecial]
  cases hn : f.nzn with
  | true => exact ⟨by simp, by simpa using dec_nznNaN hf hn T⟩
  | false =>
    by_cases hm : w.mantissa = 0
    · have hlt := (narrowFields_signedInf hf hs (m := 0) (Nat.two_pow_pos _)).2
      simpa [hm] using ⟨hlt, dec_signedInf hf hn T hs⟩
    · have hlt := (narrowFields_signedInf hf hs (m := 1) (Nat.one_lt_two_pow (by omega))).2
      simpa [hm] using ⟨hlt, dec_signedInf_add_one hf hn T hs⟩

/-- Settles O48: the encoder answers a special input at its step 2, in either rounding mode, and the decoder at its own. -/
theorem quantizeDequantizeOfSpecialInputs : Obligations.QuantizeDequantizeOfSpecialInputs := by
  intro T rm f clip src rng s bound hwf hspecial w
  have hf := Format.defined_of_wf hwf
  have hs : w.sign < 2 := decompose_sign_lt T _
  obtain ⟨hlt, hdec⟩ := dec_encodeSpecial hf T hs
  have henc : enc T f clip rm (randomOperand rm rng) (wideOperand T src) = encodeSpecial f w := if_pos hspecial
  have hwide : dec T f (encodeSpecial f w) < 2 ^ T.width := by
    rw [hdec]
    split
    · exact (decoderNaNIsNaN T).2
    · exact wideInf_lt T hs
  rw [walkLines_qdq_of_enc hwf henc hlt, wideResult_eq_ofNat hwide, hdec, encodeSpecial]
  simp only [ne_eq, ite_not]

end Sys2Proof.Machine
end

section
/-! PROOFS. The stochastic encoder's operation (40_formats.md R57, 42_rounding.md R87). -/

namespace Sys2Proof.Machine

/-- An encode operation whose encoder gives a rounded pattern answers with it on `dst`: the pattern fits a byte. -/
theorem exec_enc_of_roundedPattern {T : WideType} {rm : RoundMode} {f : Format} (hwf : f.wf = true) {clip : Bool} {s : State}
    {sign c : Nat} (hs : sign < 2) (hc : c ≤ f.cmax + 1)
    (henc : enc T f clip rm (randomOperand rm s.rng) (wideOperand T s.src) = roundedPattern f clip sign c) :
    exec (Instr.enc T rm f clip) s = .next (s.setDst (BitVec.ofNat 32 (roundedPattern f clip sign c))) := by
  have hlt := (roundedPattern_sign_magnitude (Format.defined_of_wf hwf) clip hs hc).1
  have hvalue : (Instr.enc T rm f clip).value s.src s.rng = BitVec.ofNat 32 (roundedPattern f clip sign c) := by
    rw [← narrowResult_eq_ofNat hlt, ← henc, enc_value]
    cases rm <;> rfl
  exact exec_next_iff.2 ⟨(enc_wf T rm f clip).trans hwf, by rw [hvalue]⟩

/-- Settles O25: the lower candidate is the input's lower pattern, cut at `cmax + 1`, from which the encoder takes the candidate
the random bits choose. -/
theorem srEncodeTakesABracketingCandidate : Obligations.SrEncodeTakesABracketingCandidate := by
  intro T f clip s hwf hfin v
  have hf := Format.defined_of_wf hwf
  obtain ⟨hlo, hhi⟩ := lowerPattern_bracket hf T (wideOperand T s.src)
  refine ⟨min (lowerPattern T f (wideOperand T s.src)) (f.cmax + 1), isLowerCandidate_iff hlo hhi, ?_⟩
  exact exec_enc_of_roundedPattern (rm := .sr) hwf (decompose_sign_lt T _) (stochasticChoice_le (min_le_right _ _))
    (enc_sr_eq_roundedPattern hf T s.rng.toNat (wideOperand T s.src) clip hfin)

end Sys2Proof.Machine
end

section
/-! PROOFS. The fields of a wide pattern (40_formats.md R49, 41_encoder.md R62). -/

namespace Sys2Proof.Machine

/-- The slices of R62 as quotients and remainders. -/
theorem decompose_eq_div_mod (T : WideType) (x : Nat) :
    decompose T x = { sign := x / 2 ^ (T.weo + T.mfmt) % 2, exponent := x / 2 ^ T.mfmt % 2 ^ T.weo,
                      mantissa := x % 2 ^ T.mfmt } := by
  cases T <;>
    simp only [decompose, bit, slice, WideType.width, WideType.weo, WideType.mfmt, Nat.shiftRight_eq_div_pow, pow_zero,
      Nat.div_one]

theorem decompose_exponent_lt (T : WideType) (x : Nat) : (decompose T x).exponent < 2 ^ T.weo := by
  rw [decompose_eq_div_mod]; exact Nat.mod_lt _ (Nat.two_pow_pos _)

/-- The fields make up a pattern that fits its width: nothing lies above the sign. -/
theorem decompose_recombines {T : WideType} {x : Nat} (hx : x < 2 ^ T.width) :
    (decompose T x).sign * 2 ^ (T.weo + T.mfmt) + (decompose T x).exponent * 2 ^ T.mfmt + (decompose T x).mantissa = x := by
  have hwidth : 2 ^ T.width = 2 ^ (T.weo + T.mfmt) * 2 := by cases T <;> rfl
  have hsign : x / 2 ^ (T.weo + T.mfmt) < 2 := Nat.div_lt_of_lt_mul (hwidth ▸ hx)
  rw [decompose_eq_div_mod]
  dsimp only
  calc x / 2 ^ (T.weo + T.mfmt) % 2 * 2 ^ (T.weo + T.mfmt) + x / 2 ^ T.mfmt % 2 ^ T.weo * 2 ^ T.mfmt + x % 2 ^ T.mfmt
      = (x / 2 ^ T.mfmt / 2 ^ T.weo * 2 ^ T.weo + x / 2 ^ T.mfmt % 2 ^ T.weo) * 2 ^ T.mfmt + x % 2 ^ T.mfmt := by
        rw [Nat.mod_eq_of_lt hsign, Nat.div_div_eq_div_mul, ← pow_add, add_comm T.mfmt, add_mul, mul_assoc, ← pow_add]
    _ = x := by rw [Nat.div_add_mod', Nat.div_add_mod']

/-- Settles O20, field by field. -/
theorem decompositionRoundTrips : Obligations.DecompositionRoundTrips := fun T x hx =>
  ⟨decompose_sign_lt T x, decompose_exponent_lt T x, decompose_mantissa_lt T x, decompose_recombines hx⟩

end Sys2Proof.Machine
end

section
/-! PROOFS. The magnitude of `cmax + 1` (41_encoder.md R80). -/

namespace Sys2Proof.Machine

/-- `cmax + 1` is the pattern of exponent field `max_exp + 1` and mantissa 0, whose number is `top`. -/
theorem narrowMag_cmax_add_one {f : Format} (hf : f.defined = true) : narrowMag f (f.cmax + 1) = topMag f := by
  have hbias := Format.bias_add_wm_le hf
  rw [f.cmax_add_one, Nat.succ_mul, narrowMag_of_significand f (.inr le_rfl) (by omega), topMag, ← pow_add, ← pow_add]
  congr 1
  omega

/-- Settles O24: the magnitudes of all patterns increase, and the last one is `top`. -/
theorem narrowMagnitudesIncrease : Obligations.NarrowMagnitudesIncrease := fun f hf =>
  ⟨narrowMag_cmax_add_one hf, fun _ _ hlt _ => narrowMag_strictMono f hlt⟩

end Sys2Proof.Machine
end

section
/-! PROOFS. The smallest denormal of `E5M2` in binary16, against a sentence of 40_formats.md R59 (log entry 11). -/

namespace Sys2Proof.Machine

/-- `DEC.H E5M2` of the smallest denormal, `2^-16`, by the fast path of 43_decoder.md R93. -/
theorem exec_decH_e5m2_smallestDenormal {s : State} (hsrc : s.src = 0x01#32) :
    exec (Instr.dec .h e5m2) s = .next (s.setDst 0x0100#32) := by
  have hvalue : wideResult .h (dec .h e5m2 (narrowOperand 0x01#32)) = 0x0100#32 := rfl
  exact exec_next_iff.2 ⟨rfl, by rw [dec_value, hsrc, hvalue]⟩

/-- Refutes O44: `DEC.H E5M2` decodes the denormal `0x01` to `0x0100`, a binary16 denormal (log entry 11). -/
theorem not_narrowDenormalsDecodeToNormalsExceptE5M2Nzn : ¬ Obligations.NarrowDenormalsDecodeToNormalsExceptE5M2Nzn := by
  intro h
  have hexec := exec_decH_e5m2_smallestDenormal (s := State.reset.present 0x0543#16 0x01#32 0#32) rfl
  have hnormal := h .h e5m2 _ _ rfl hexec (by decide) (by decide) (by decide)
  rw [State.setDst_dst] at hnormal
  have hdenormal : isWideDenormal .h (0x0100#32).toNat = true := by decide
  exact Bool.false_ne_true (hnormal.symm.trans hdenormal)

end Sys2Proof.Machine
end

section
/-! PROOFS. The encode operations on a finite input, in either rounding mode (41_encoder.md R61, R80): the element of
`{0, ..., cmax + 1}` that the rounding unit makes, and its row of R80's table on `dst`. -/

namespace Sys2Proof.Machine

/-- The element of `{0, ..., cmax + 1}` that the rounding unit makes of a finite input, to which the clip policy is then applied. -/
def roundedElement (T : WideType) (f : Format) (rm : RoundMode) (rng x : Nat) : Nat :=
  min (binade T f x * 2 ^ f.wm + (roundIn T f rm rng x).retained) (f.cmax + 1)

theorem roundedElement_le (T : WideType) (f : Format) (rm : RoundMode) (rng x : Nat) :
    roundedElement T f rm rng x ≤ f.cmax + 1 := min_le_right _ _

/-- Neither the binade nor the rounding unit sees the sign (R62). -/
theorem roundedElement_congr {T : WideType} {x x' : Nat} (hexp : (decompose T x').exponent = (decompose T x).exponent)
    (hman : (decompose T x').mantissa = (decompose T x).mantissa) (f : Format) (rm : RoundMode) (rng : Nat) :
    roundedElement T f rm rng x' = roundedElement T f rm rng x := by
  have hscale : scale T f (decompose T x') = scale T f (decompose T x) := by simp only [scale, hexp, hman]
  simp only [roundedElement, binade, scaleOf, roundIn, hscale]

section Finite
variable {f : Format} (hf : f.defined = true) (T : WideType) (rm : RoundMode) (rng : Nat) {x : Nat}
include hf

/-- Of an aligned mantissa of 0 nothing is retained, and no addend carries into the retained part. -/
theorem roundedElement_of_mant_eq_zero (h : (roundIn T f rm rng x).mant = 0) : roundedElement T f rm rng x = 0 := by
  have hquotient : (roundIn T f rm rng x).quotient = 0 := by
    rw [← (roundIn_aligned hf T rm rng x).mant_div, h, Nat.zero_div]
  have hretained : (roundIn T f rm rng x).retained = 0 := by
    rw [RoundIn.retained_eq, h, Nat.zero_div, Nat.zero_mod, zero_add, zero_add, Nat.div_eq_of_lt (RoundIn.addend_lt _)]
  have hbinade : binade T f x = 0 := by
    have hpos : 0 < 2 ^ f.wm := Nat.two_pow_pos _
    have := (roundIn_quotient hf T rm rng x).2
    omega
  rw [roundedElement, hbinade, hretained, zero_mul, add_zero, Nat.zero_min]

/-- An input with both fields 0 rounds to 0. -/
theorem roundedElement_of_zero_fields (hexp : (decompose T x).exponent = 0) (hman : (decompose T x).mantissa = 0) :
    roundedElement T f rm rng x = 0 := by
  refine roundedElement_of_mant_eq_zero hf T rm rng ?_
  simp [roundIn, scale, hexp, hman, alignMant]

/-- The encoder of a finite input, zeros included: the case table of R80 at the rounded element. -/
theorem enc_of_finite (clip : Bool) (hfin : isSpecial T x = false) :
    enc T f clip rm rng x = roundedPattern f clip (decompose T x).sign (roundedElement T f rm rng x) := by
  by_cases hx : x = 0
  · subst hx
    have hfields : decompose T 0 = ⟨0, 0, 0⟩ := by cases T <;> rfl
    rw [roundedElement_of_zero_fields hf T rm rng (by rw [hfields]) (by rw [hfields]), hfields, roundedPattern_positive_zero, enc,
      if_neg (by simp [hfin]), if_pos rfl]
  · exact enc_eq_roundedPattern hf T rm rng x clip hfin hx

/-- From `top` on every input rounds to `cmax + 1`: its lower pattern is that already. -/
theorem roundedElement_of_topMag_le (h : topMag f ≤ wideMag T x) : roundedElement T f rm rng x = f.cmax + 1 := by
  have hlower : f.cmax + 1 < lowerPattern T f x + 1 := by
    rw [← (narrowMag_strictMono f).lt_iff_lt, narrowMag_cmax_add_one hf]
    exact h.trans_lt (lowerPattern_bracket hf T x).2
  have hmem := (roundIn T f rm rng x).retained_mem.1
  rw [(roundIn_aligned hf T rm rng x).mant_div] at hmem
  rw [lowerPattern_eq T f rm rng x] at hlower
  exact min_eq_right (by omega)

end Finite

/-- An encode operation on a finite input answers with the row of R80's table for the rounded element. -/
theorem exec_enc_of_finite (T : WideType) (rm : RoundMode) {f : Format} (hwf : f.wf = true) (clip : Bool) {s : State}
    (hfin : isSpecial T (wideOperand T s.src) = false) :
    exec (Instr.enc T rm f clip) s = .next (s.setDst (BitVec.ofNat 32
      (roundedPattern f clip (decompose T (wideOperand T s.src)).sign
        (roundedElement T f rm (randomOperand rm s.rng) (wideOperand T s.src))))) :=
  exec_enc_of_roundedPattern hwf (decompose_sign_lt T _) (roundedElement_le T f rm _ _)
    (enc_of_finite (Format.defined_of_wf hwf) T rm _ clip hfin)

/-- Settles O23: the rounded element lies between its midpoints, so it is the one nearest element. -/
theorem rneEncodeIsNearestEven : Obligations.RneEncodeIsNearestEven := by
  intro T f clip s hwf hfin
  exact ⟨_, (rne_betweenMidpoints (Format.defined_of_wf hwf) T 0 (wideOperand T s.src)).isNearestEven_iff,
    exec_enc_of_finite T .rne hwf clip hfin⟩

/-- Settles O27: the rounded element is `cmax + 1`, which R80's table clips. -/
theorem overflowFollowsTheClipPolicy : Obligations.OverflowFollowsTheClipPolicy := by
  intro T rm f clip s hwf hfin htop sign
  have hf := Format.defined_of_wf hwf
  have hcmax : f.cmax = f.maxExp * 2 ^ f.wm + (2 ^ f.wm - 1) := by
    have hadd := f.cmax_add_one
    have hpos : 0 < 2 ^ f.wm := Nat.two_pow_pos _
    rw [Nat.succ_mul] at hadd
    omega
  have hinf : f.signedInf 0 = (2 ^ f.we - 1) * 2 ^ f.wm := by
    rw [Format.signedInf, Nat.zero_shiftLeft, zero_add, Nat.shiftLeft_eq]
  rw [exec_enc_of_finite T rm hwf clip hfin, roundedElement_of_topMag_le hf T rm _ htop, roundedPattern_eq hf clip _ le_rfl,
    if_neg (by omega), ← hcmax, ← hinf]
  cases clip
  · rw [clippedElement_noClip]; rfl
  · rw [clippedElement_clip]; rfl

end Sys2Proof.Machine
end

section
/-! PROOFS. The encode operations on inputs that round to zero (41_encoder.md R65, R76, R77). -/

namespace Sys2Proof.Machine

/-- An encode operation on a finite input that rounds to 0 answers with a zero of its sign, or without one under `nzn` (R74). -/
theorem exec_enc_of_roundedElement_zero {T : WideType} {rm : RoundMode} {f : Format} (hwf : f.wf = true) (clip : Bool) {s : State}
    (hfin : isSpecial T (wideOperand T s.src) = false)
    (hzero : roundedElement T f rm (randomOperand rm s.rng) (wideOperand T s.src) = 0) :
    exec (Instr.enc T rm f clip) s = .next (s.setDst
      (if f.nzn then 0#32 else BitVec.ofNat 32 ((decompose T (wideOperand T s.src)).sign * 2 ^ 7))) := by
  rw [exec_enc_of_finite T rm hwf clip hfin, hzero, roundedPattern, if_neg (by omega), if_pos rfl, Nat.shiftLeft_eq]
  cases f.nzn <;> rfl

/-- A pattern with no bit set below the sign is a zero. -/
theorem exec_enc_of_zero_fields (T : WideType) (rm : RoundMode) {f : Format} (hwf : f.wf = true) (clip : Bool) {s : State}
    {sign : Nat} (h : decompose T (wideOperand T s.src) = ⟨sign, 0, 0⟩) :
    exec (Instr.enc T rm f clip) s = .next (s.setDst (if f.nzn then 0#32 else BitVec.ofNat 32 (sign * 2 ^ 7))) := by
  have hfin : isSpecial T (wideOperand T s.src) = false := by rw [isSpecial, h]; cases T <;> rfl
  rw [exec_enc_of_roundedElement_zero hwf clip hfin
    (roundedElement_of_zero_fields (Format.defined_of_wf hwf) T rm _ (by rw [h]) (by rw [h])), h]

/-- Settles O22: both zeros have exponent and mantissa field 0. -/
theorem encodeOfZeros : Obligations.EncodeOfZeros := by
  intro T rm f clip s hwf
  constructor
  · intro hpos
    have hfields : decompose T (wideOperand T s.src) = ⟨0, 0, 0⟩ := by rw [hpos]; cases T <;> rfl
    rw [exec_enc_of_zero_fields T rm hwf clip hfields]
    cases f.nzn <;> rfl
  · intro hneg
    have hfields : decompose T (wideOperand T s.src) = ⟨1, 0, 0⟩ := by rw [hneg]; cases T <;> rfl
    rw [exec_enc_of_zero_fields T rm hwf clip hfields]
    rfl

theorem alignMant_of_pos {m : Nat} {e : Int} (h : 0 < e) : alignMant m e = m >>> e.toNat := if_pos h

/-- The alignment of a binary32 denormal shifts every bit out: the narrow denormal threshold is far above. -/
theorem roundIn_mant_of_binary32Denormal {f : Format} (hf : f.defined = true) (rm : RoundMode) (rng : Nat) {x : Nat}
    (hexp : (decompose .s x).exponent = 0) : (roundIn .s f rm rng x).mant = 0 := by
  have hbias := Format.bias_add_wm_le hf
  have hediff : (roundIn .s f rm rng x).ediff = 127 - f.bias := by
    simp only [roundIn, scale, hexp, if_true, Format.den, WideType.wbias]
    omega
  have hpre : (roundIn .s f rm rng x).mantPre < 2 ^ (WideType.mfmt .s + 1) := scale_mantPre_lt .s f x
  rw [(roundIn_aligned hf .s rm rng x).mant_eq, alignMant_of_pos (by omega)]
  refine Nat.shiftRight_eq_zero _ _ (hpre.trans_le (Nat.pow_le_pow_right two_pos ?_))
  show 24 ≤ _
  omega

/-- Settles O28: the aligned mantissa is 0, so the input rounds to 0. -/
theorem binary32DenormalsEncodeToZero : Obligations.Binary32DenormalsEncodeToZero := by
  intro rm f clip s hwf hden
  have hf := Format.defined_of_wf hwf
  have hsrc : wideOperand .s s.src = s.src.toNat := by rw [wideOperand_eq_mod]; exact Nat.mod_eq_of_lt s.src.isLt
  have hexp : (decompose .s (wideOperand .s s.src)).exponent = 0 := by
    rw [isWideDenormal, Bool.and_eq_true, beq_iff_eq] at hden
    rw [hsrc]
    exact hden.1
  have hfin : isSpecial .s (wideOperand .s s.src) = false := by rw [isSpecial, hexp]; rfl
  have hsign : (decompose .s (wideOperand .s s.src)).sign = (s.src.getLsbD 31).toNat := by
    rw [hsrc, decompose_eq_div_mod, BitVec.getLsbD, Nat.toNat_testBit]
    rfl
  rw [exec_enc_of_roundedElement_zero hwf clip hfin
    (roundedElement_of_mant_eq_zero hf .s rm _ (roundIn_mant_of_binary32Denormal hf rm _ hexp)), hsign]
  cases s.src.getLsbD 31 <;> rfl

end Sys2Proof.Machine
end

section
/-! PROOFS. The encode operations on infinities and NaNs (41_encoder.md R63, R64). -/

namespace Sys2Proof.Machine

/-- An encode operation on a special input answers with what step 2 makes of it. -/
theorem exec_enc_of_special (T : WideType) (rm : RoundMode) {f : Format} (hwf : f.wf = true) (clip : Bool) {s : State}
    (hspecial : isSpecial T (wideOperand T s.src) = true) :
    exec (Instr.enc T rm f clip) s =
      .next (s.setDst (BitVec.ofNat 32 (encodeSpecial f (decompose T (wideOperand T s.src))))) := by
  have hlt := (dec_encodeSpecial (Format.defined_of_wf hwf) T (decompose_sign_lt T (wideOperand T s.src))).1
  have hvalue : (Instr.enc T rm f clip).value s.src s.rng =
      BitVec.ofNat 32 (encodeSpecial f (decompose T (wideOperand T s.src))) := by
    rw [← narrowResult_eq_ofNat hlt, enc_value, enc, if_pos hspecial]
  exact exec_next_iff.2 ⟨(enc_wf T rm f clip).trans hwf, by rw [hvalue]⟩

/-- Settles O21: an all-ones exponent makes the input special, and step 2 gives the pattern. -/
theorem encodeOfSpecialInputs : Obligations.EncodeOfSpecialInputs := by
  intro T rm f clip s hwf w hexp
  have hspecial : isSpecial T (wideOperand T s.src) = true := beq_iff_eq.2 hexp
  rw [exec_enc_of_special T rm hwf clip hspecial, encodeSpecial, Format.signedInf, Nat.shiftLeft_eq, Nat.shiftLeft_eq]
  simp only [ne_eq, ite_not]
  rfl

end Sys2Proof.Machine
end

section
/-! PROOFS. Negating the input of an encode operation (41_encoder.md R62, R74, R75). -/

namespace Sys2Proof.Machine

theorem xor_two_pow_mod (x k : Nat) : (x ^^^ 2 ^ k) % 2 ^ k = x % 2 ^ k := by
  rw [Nat.xor_mod_two_pow, Nat.mod_self, Nat.xor_zero]

theorem xor_two_pow_bit (x k : Nat) : (x ^^^ 2 ^ k) / 2 ^ k % 2 = 1 - x / 2 ^ k % 2 := by
  rw [Nat.xor_div_two_pow, Nat.div_self (Nat.two_pow_pos k)]
  refine (Nat.xor_mod_two_pow (n := 1)).trans ?_
  rcases Nat.mod_two_eq_zero_or_one (x / 2 ^ k) with h | h <;> rw [pow_one, h] <;> rfl

/-- The host flips the sign bit of a wide operand by flipping that bit of `src` (30_encoding.md R39). -/
theorem wideOperand_xor_signBit (T : WideType) (src : Word) :
    wideOperand T (src ^^^ BitVec.ofNat 32 (2 ^ (T.width - 1))) = wideOperand T src ^^^ 2 ^ (T.weo + T.mfmt) := by
  rw [wideOperand_eq_mod, wideOperand_eq_mod, BitVec.toNat_xor, Nat.xor_mod_two_pow]
  congr 1
  cases T <;> rfl

/-- Flipping the sign bit flips the sign field and leaves the others. -/
theorem decompose_xor_signBit (T : WideType) (x : Nat) :
    (decompose T (x ^^^ 2 ^ (T.weo + T.mfmt))).sign = 1 - (decompose T x).sign ∧
    (decompose T (x ^^^ 2 ^ (T.weo + T.mfmt))).exponent = (decompose T x).exponent ∧
    (decompose T (x ^^^ 2 ^ (T.weo + T.mfmt))).mantissa = (decompose T x).mantissa := by
  rw [decompose_eq_div_mod, decompose_eq_div_mod]
  refine ⟨xor_two_pow_bit _ _, ?_, ?_⟩ <;> dsimp only
  · rw [Nat.xor_div_two_pow, pow_add, Nat.mul_div_cancel _ (Nat.two_pow_pos _), xor_two_pow_mod]
  · rw [Nat.xor_mod_two_pow, pow_add, Nat.mul_mod_left, Nat.xor_zero]

/-- Flipping bit 7 of a narrow pattern given by sign and magnitude. -/
theorem ofNat_xor_signBit {sign m : Nat} (hs : sign < 2) (hm : m < 128) :
    BitVec.ofNat 32 (sign * 128 + m) ^^^ 0x80#32 = BitVec.ofNat 32 ((1 - sign) * 128 + m) := by
  have hlt : (sign * 128 + m) ^^^ 2 ^ 7 < 2 ^ 8 := Nat.xor_lt_two_pow (by omega) (by decide)
  have hbit := xor_two_pow_bit (sign * 128 + m) 7
  have hlow := xor_two_pow_mod (sign * 128 + m) 7
  have hxor : (sign * 128 + m) ^^^ 2 ^ 7 = (1 - sign) * 128 + m := by omega
  rw [← hxor, BitVec.ofNat_xor]
  rfl

/-- The rows of R80's table for the two signs: bit 7 differs, but for the zero under `nzn`. -/
theorem roundedPattern_flipSign {f : Format} (hf : f.defined = true) (clip : Bool) {sign c : Nat} (hs : sign < 2)
    (hc : c ≤ f.cmax + 1) :
    BitVec.ofNat 32 (roundedPattern f clip (1 - sign) c) =
      if f.nzn = true ∧ BitVec.ofNat 32 (roundedPattern f clip sign c) = 0#32 then 0#32
      else BitVec.ofNat 32 (roundedPattern f clip sign c) ^^^ 0x80#32 := by
  have hlt := clippedElement_lt hf clip hc
  have hfin := clippedElement_finite hf (clip := clip) hc
  rw [roundedPattern_eq hf clip _ hc, roundedPattern_eq hf clip _ hc]
  by_cases hzero : c = 0 ∧ f.nzn = true
  · obtain ⟨rfl, hn⟩ := hzero
    simp [hn, clippedElement_of_le (Nat.zero_le f.cmax)]
  · have hne : ¬ (f.nzn = true ∧ BitVec.ofNat 32 (sign * 128 + clippedElement f clip c) = 0#32) := by
      rintro ⟨hn, h0⟩
      have hnat := congrArg BitVec.toNat h0
      rw [BitVec.toNat_ofNat, BitVec.toNat_ofNat] at hnat
      exact hzero ⟨(hfin (by simp [hn])).2 (by omega), hn⟩
    rw [if_neg hzero, if_neg hzero, if_neg hne, ofNat_xor_signBit hs hlt]

/-- Settles O29: the negated input has the same rounded element, and the other sign's row of R80's table. -/
theorem encodeIsSignSymmetric : Obligations.EncodeIsSignSymmetric := by
  intro T rm f clip s hwf hfin
  have hf := Format.defined_of_wf hwf
  obtain ⟨hsign, hexp, hman⟩ := decompose_xor_signBit T (wideOperand T s.src)
  rw [← wideOperand_xor_signBit] at hsign hexp hman
  refine ⟨_, exec_enc_of_finite T rm hwf clip hfin, ?_⟩
  rw [exec_enc_of_finite T rm hwf clip (by rw [isSpecial, hexp]; exact hfin), roundedElement_congr hexp hman, hsign,
    roundedPattern_flipSign hf clip (decompose_sign_lt T _) (roundedElement_le T f rm _ _)]
  rfl

end Sys2Proof.Machine
end

section
/-! PROOFS. The 32-bit forms of the encoder's shifts (41_encoder.md R69, 42_rounding.md R82, decision D6). -/

namespace Sys2Proof.Machine

/-- A mantissa of at most 24 bits is shifted out before the clamp of R69 takes effect. -/
theorem shiftRight_min_clamp {m k : Nat} (hm : m < 2 ^ 24) : m >>> k = m >>> min k 31 := by
  rcases Nat.le_total k 31 with hle | hge
  · rw [min_eq_left hle]
  · have hzero {n : Nat} (hn : 31 ≤ n) : m >>> n = 0 :=
      Nat.shiftRight_eq_zero m n (hm.trans_le (Nat.pow_le_pow_right two_pos (by omega)))
    rw [min_eq_right hge, hzero hge, hzero le_rfl]

/-- A mantissa of at most 24 bits is no midpoint of more than 24 discarded ones: the 1 would stand above its top bit. -/
theorem mod_two_pow_ne_half {m D : Nat} (hm : m < 2 ^ 24) (hD : 24 < D) : m % 2 ^ D ≠ 2 ^ (D - 1) :=
  ((Nat.mod_le _ _).trans_lt (hm.trans_le (Nat.pow_le_pow_right two_pos (by omega)))).ne

/-- Settles O36: the mantissa before the shift has at most 24 bits in both wide types. -/
theorem clampedShiftsAgree : Obligations.ClampedShiftsAgree := by
  intro T f rm rng x hwf hx hfin u
  have hm : u.mantPre < 2 ^ 24 :=
    (scale_mantPre_lt T f x).trans_le (Nat.pow_le_pow_right two_pos (by cases T <;> decide))
  constructor
  · intro hpos
    rw [(roundIn_aligned (Format.defined_of_wf hwf) T rm rng x).mant_eq, alignMant_of_pos hpos]
    exact shiftRight_min_clamp hm
  · rw [RoundIn.midpoint, Nat.and_two_pow_sub_one_eq_mod]
    rcases Nat.lt_or_ge 24 u.discarded with hgt | hle
    · simp [hgt.not_ge, mod_two_pow_ne_half hm hgt]
    · simp [hle]

end Sys2Proof.Machine
end

section
/-! PROOFS. How many random fields give the upper candidate of a stochastic encode operation (42_rounding.md R87). -/

namespace Sys2Proof.Machine

/-- Exactly `m` of the `n` values of a field carry when `m` is added to them. -/
theorem card_range_filter_carry {n m : Nat} (h : m ≤ n) : ((Finset.range n).filter fun r => n ≤ m + r % n).card = m := by
  have hIco : ((Finset.range n).filter fun r => n ≤ m + r % n) = Finset.Ico (n - m) n := by
    ext r
    rw [Finset.mem_filter, Finset.mem_range, Finset.mem_Ico, and_comm]
    refine and_congr_left fun hr => ?_
    rw [Nat.mod_eq_of_lt hr]
    omega
  rw [hIco, Nat.card_Ico, Nat.sub_sub_self h]

/-- The pattern `signed_inf` has a mantissa field of zeros, the largest finite one has not. -/
theorem signedInf_zero_ne_cmax {f : Format} (hf : f.defined = true) : f.signedInf 0 ≠ f.cmax := by
  obtain ⟨nzn, rfl | rfl | rfl | rfl | rfl⟩ := Format.defined_cases hf <;> cases nzn <;> decide

/-- The clip policy tells the two candidates apart, but where it saturates the upper one to the lower. -/
theorem clippedElement_ne_succ {f : Format} (hf : f.defined = true) {clip : Bool} {c : Nat} (hc : c ≤ f.cmax)
    (hclip : clip = false ∨ c < f.cmax) : clippedElement f clip c ≠ clippedElement f clip (c + 1) := by
  rcases Nat.lt_or_eq_of_le hc with hlt | rfl
  · rw [clippedElement_of_le hc, clippedElement_of_le hlt]
    omega
  · obtain rfl : clip = false := by simpa using hclip
    rw [clippedElement_of_le le_rfl, clippedElement_noClip]
    exact (signedInf_zero_ne_cmax hf).symm

/-- So the two candidates have different results: their magnitudes differ. -/
theorem ofNat_roundedPattern_ne_succ {f : Format} (hf : f.defined = true) {clip : Bool} {sign c : Nat} (hs : sign < 2)
    (hc : c ≤ f.cmax) (hclip : clip = false ∨ c < f.cmax) :
    BitVec.ofNat 32 (roundedPattern f clip sign c) ≠ BitVec.ofNat 32 (roundedPattern f clip sign (c + 1)) := by
  obtain ⟨hlower, -, hlowerMag⟩ := roundedPattern_sign_magnitude hf clip hs (show c ≤ f.cmax + 1 by omega)
  obtain ⟨hupper, -, hupperMag⟩ := roundedPattern_sign_magnitude hf clip hs (show c + 1 ≤ f.cmax + 1 by omega)
  intro heq
  rw [← narrowResult_eq_ofNat hlower, ← narrowResult_eq_ofNat hupper] at heq
  have hpattern := congrArg narrowOperand heq
  rw [narrowOperand_narrowResult hlower, narrowOperand_narrowResult hupper] at hpattern
  exact clippedElement_ne_succ hf hc hclip (by rw [← hlowerMag, ← hupperMag, hpattern])

/-- The result is that of the upper candidate exactly when the fraction field and the random field carry (R87). -/
theorem ofNat_roundedPattern_stochasticChoice_eq_iff {f : Format} (hf : f.defined = true) {clip : Bool} {sign c : Nat}
    (hs : sign < 2) (hc : c ≤ f.cmax) (hclip : clip = false ∨ c < f.cmax) (drop v rng : Nat) :
    BitVec.ofNat 32 (roundedPattern f clip sign (stochasticChoice f drop v rng c)) =
        BitVec.ofNat 32 (roundedPattern f clip sign (c + 1)) ↔
      2 ^ drop ≤ fractionField f drop v c + rng % 2 ^ drop := by
  rw [stochasticChoice]
  split
  · rename_i hup
    exact iff_of_true rfl hup.2
  · rename_i hdown
    exact iff_of_false (ofNat_roundedPattern_ne_succ hf hs hc hclip) (fun hcarry => hdown ⟨hc, hcarry⟩)

/-- The fraction of the way to the upper candidate is less than the whole of it. -/
theorem fractionField_lt {f : Format} {drop v c : Nat} (h : v < narrowMag f (c + 1)) : fractionField f drop v c < 2 ^ drop := by
  have hgap : narrowMag f c < narrowMag f (c + 1) := narrowMag_strictMono f (Nat.lt_succ_self c)
  rw [fractionField, Nat.div_lt_iff_lt_mul (by omega)]
  exact Nat.mul_lt_mul_of_pos_left (by omega) (Nat.two_pow_pos _)

/-- The value of a stochastic encode operation of a finite input with lower candidate `c`: the row of R80's table for the candidate
the random bits choose. -/
theorem enc_sr_value_of_isLowerCandidate (T : WideType) {f : Format} (hwf : f.wf = true) (clip : Bool) {src : Word} (rng : Word)
    {c : Nat} (hfin : isSpecial T (wideOperand T src) = false) (hc : IsLowerCandidate f (wideMag T (wideOperand T src)) c) :
    (Instr.enc T .sr f clip).value src rng = BitVec.ofNat 32 (roundedPattern f clip (decompose T (wideOperand T src)).sign
      (stochasticChoice f (dropWidth T f) (wideMag T (wideOperand T src)) rng.toNat c)) := by
  have hf := Format.defined_of_wf hwf
  obtain ⟨hlo, hhi⟩ := lowerPattern_bracket hf T (wideOperand T src)
  have hlower := (isLowerCandidate_iff hlo hhi c).1 hc
  have hlt := (roundedPattern_sign_magnitude hf clip (decompose_sign_lt T (wideOperand T src))
    (stochasticChoice_le hc.1 : stochasticChoice f (dropWidth T f) (wideMag T (wideOperand T src)) rng.toNat c ≤ _)).1
  rw [← narrowResult_eq_ofNat hlt, enc_value, enc_sr_eq_roundedPattern hf T _ _ clip hfin, ← hlower]

/-- Settles O26: a random field gives the upper candidate exactly when it carries with the fraction field. -/
theorem srRoundsUpForExactlyTheFraction : Obligations.SrRoundsUpForExactlyTheFraction := by
  intro T f clip src c hwf hfin hc hmax hclip
  have hf := Format.defined_of_wf hwf
  have hfield := fractionField_lt (drop := dropWidth T f) (hc.2.2 hmax)
  have hbus : 2 ^ dropWidth T f ≤ 2 ^ 32 := Nat.pow_le_pow_right two_pos (dropWidth_le T f)
  rw [← card_range_filter_carry hfield.le]
  congr 1
  refine Finset.filter_congr fun r hr => ?_
  rw [enc_sr_value_of_isLowerCandidate T hwf clip _ hfin hc,
    ofNat_roundedPattern_stochasticChoice_eq_iff hf (decompose_sign_lt T _) hmax hclip, BitVec.toNat_ofNat,
    Nat.mod_eq_of_lt ((Finset.mem_range.1 hr).trans_le hbus)]

end Sys2Proof.Machine
end

section
/-! PROOFS. The integer laws of the rounding unit (42_rounding.md R86 to R88). -/

namespace Sys2Proof.Machine

theorem RoundIn.midpoint_iff (u : RoundIn) : u.midpoint = true ↔ u.remainder = 2 ^ (u.discarded - 1) := beq_iff_eq

/-- Settles O33: the unit's laws, at the mantissa that 41_encoder.md R69 aligns. -/
theorem rneUnitRoundsToNearestEven : Obligations.RneUnitRoundsToNearestEven := by
  intro T f rng x hwf _ _ u q r
  have ha : u.Aligned := roundIn_aligned (Format.defined_of_wf hwf) T .rne rng x
  exact ⟨ha.mant_div, ha.mant_mod, ha.retained_above_half rfl, ha.retained_below_half rfl, ha.retained_of_tie rfl⟩

section Tie
variable {u : RoundIn} (h : u.Aligned) (htie : u.remainder = 2 ^ (u.discarded - 1))
include h htie

theorem RoundIn.Aligned.half_le_mant_of_tie : 2 ^ (u.drop - 1) ≤ u.mant :=
  (h.mant_mod_of_tie htie).ge.trans (Nat.mod_le _ _)

/-- At a tie the subtraction of R83 takes the discarded field to just below its half. -/
theorem RoundIn.Aligned.mant_sub_one_mod_of_tie : (u.mant - 1) % 2 ^ u.drop = 2 ^ (u.drop - 1) - 1 := by
  have hfield := h.mant_mod_of_tie htie
  have hdouble := h.two_pow_drop
  have hpos : 0 < 2 ^ (u.drop - 1) := Nat.two_pow_pos _
  have hmant := Nat.div_add_mod u.mant (2 ^ u.drop)
  rw [show u.mant - 1 = 2 ^ u.drop * (u.mant / 2 ^ u.drop) + (2 ^ (u.drop - 1) - 1) by omega, Nat.mul_add_mod,
    Nat.mod_eq_of_lt (by omega)]

/-- The 1 of the midpoint is a bit of the mantissa before the shift. -/
theorem RoundIn.Aligned.discarded_le_of_tie {k : Nat} (hpre : u.mantPre < 2 ^ k) : u.discarded ≤ k := by
  have hhalf : 2 ^ (u.discarded - 1) < 2 ^ k := (htie.ge.trans (Nat.mod_le _ _)).trans_lt hpre
  have hlt := (Nat.pow_lt_pow_iff_right (by decide)).1 hhalf
  have := h.discarded_pos
  omega

end Tie

/-- Settles O35: the 1 of the midpoint survives the alignment, and below it the smallest tie has an even retained part, 0. -/
theorem tieNeverMeetsMantissaZero : Obligations.TieNeverMeetsMantissaZero := by
  intro T f rng x hwf _ _ u hmid
  have hf := Format.defined_of_wf hwf
  have ha : u.Aligned := roundIn_aligned hf T .rne rng x
  have htie := u.midpoint_iff.1 hmid
  have hD : u.discarded ≤ T.mfmt + 1 := ha.discarded_le_of_tie htie (scale_mantPre_lt T f x)
  refine ⟨hD, ?_, ha.half_le_mant_of_tie htie, ha.mant_sub_one_mod_of_tie htie, fun hsmallest => ?_⟩
  · have hwidth : T.mfmt = u.drop + f.wm := dropWidth_add_wm hf T
    rcases ha.cases with ⟨e, he, hDe, -⟩ | ⟨he, -, -⟩ <;> omega
  · have hquotient : u.quotient = 0 := by
      rw [← ha.mant_div, hsmallest, ha.two_pow_drop, Nat.div_eq_of_lt]
      have : 0 < 2 ^ (u.drop - 1) := Nat.two_pow_pos _
      omega
    rw [ha.retained_of_tie rfl htie, hquotient]

/-- What the aligned mantissa is of the mantissa before the shift (41_encoder.md R69): its double, or what is left of it without
its low `ediff` bits. -/
theorem RoundIn.Aligned.mant_bounds {u : RoundIn} (h : u.Aligned) :
    (u.ediff = -1 → u.mant = 2 * u.mantPre) ∧
    (0 ≤ u.ediff → u.mant * 2 ^ u.ediff.toNat ≤ u.mantPre ∧ u.mantPre < (u.mant + 1) * 2 ^ u.ediff.toNat) := by
  rcases h.cases with ⟨e, he, -, hm⟩ | ⟨he, -, hm⟩
  · rw [he, hm, Int.toNat_natCast]
    exact ⟨fun h => by omega,
      fun _ => ⟨Nat.div_mul_le_self _ _, (Nat.div_lt_iff_lt_mul (Nat.two_pow_pos e)).1 (Nat.lt_succ_self _)⟩⟩
  · exact ⟨fun _ => hm, fun h => by omega⟩

/-- Settles O34: the retained part exceeds `q` exactly by the carry, which `f` of the fields make. -/
theorem srUnitRoundsUpForExactlyTheField : Obligations.SrUnitRoundsUpForExactlyTheField := by
  intro T f rng x hwf _ _ u drop mant q fld
  have hf := Format.defined_of_wf hwf
  have ha : (u rng).Aligned := roundIn_aligned hf T .sr rng x
  have hfld : fld < 2 ^ drop := Nat.mod_lt _ (Nat.two_pow_pos _)
  have hretained (r : Nat) : (u r).retained = q + if 2 ^ drop ≤ fld + r % 2 ^ drop then 1 else 0 := by
    rw [roundIn_sr_retained hf, ← (roundIn_aligned hf T .sr r x).mant_div]
    rfl
  have hcount := card_range_filter_carry hfld.le
  obtain ⟨hshiftedIn, hshiftedOut⟩ := ha.mant_bounds
  refine ⟨?_, ?_, ?_, hshiftedIn, hshiftedOut, fun hzero => ?_, fun rng' h => roundIn_sr_out_congr h x⟩
  · rw [hretained]
    split <;> rfl
  · simpa [hretained] using hcount
  · simp only [hretained, Finset.sum_add_distrib, Finset.sum_const, Finset.card_range, smul_eq_mul, ← Finset.card_filter, hcount]
    exact Nat.div_add_mod _ _
  · rw [hretained, hzero, if_neg]
    · rfl
    · have := Nat.mod_lt rng (Nat.two_pow_pos drop)
      omega

end Sys2Proof.Machine
end

section
/-! PROOFS. The bounds of the datapath (42_rounding.md R84). -/

namespace Sys2Proof.Machine

theorem bit_eq_zero_of_lt {v i : Nat} (h : v < 2 ^ i) : bit v i = 0 := by
  rw [bit, Nat.shiftRight_eq_div_pow, Nat.div_eq_of_lt h]

/-- The top bit of a value that has no higher one. -/
theorem bit_eq_one_iff {v i : Nat} (h : v < 2 ^ (i + 1)) : bit v i = 1 ↔ 2 ^ i ≤ v := by
  rcases Nat.lt_or_ge v (2 ^ i) with hlt | hge
  · simp [bit_eq_zero_of_lt hlt, hlt]
  · rw [pow_succ] at h
    have hone : v / 2 ^ i = 1 := Nat.div_eq_of_lt_le (by omega) (by omega)
    simp [bit, Nat.shiftRight_eq_div_pow, hone, hge]

/-- The carry (R85) adds at most one to the exponent field. -/
theorem RoundIn.out_f8Exp_bounds (u : RoundIn) : u.f8Exp ≤ u.out.f8Exp ∧ u.out.f8Exp ≤ u.f8Exp + 1 := by
  rw [RoundIn.out, propagateCarry]
  split <;> split <;> simp only <;> omega

section Scale
variable (T : WideType) (f : Format) (x : Nat)

/-- The true exponent of a finite input is at most the wide bias. -/
theorem scale_act_le_wbias (hfin : isSpecial T x = false) : (scaleOf T f x).act ≤ T.wbias := by
  have hlt := decompose_exponent_lt T x
  have hne : (decompose T x).exponent ≠ 2 ^ T.weo - 1 := by simpa [isSpecial] using hfin
  have hbias : 2 ^ T.weo = 2 * T.wbias + 2 := by cases T <;> rfl
  have hpos : 1 ≤ T.wbias := by cases T <;> decide
  rw [scaleOf, scale]
  split <;> simp only <;> omega

/-- The alignment distance is between 0 and that of the wide denormals, which may be negative (R67). -/
theorem scale_ediff_bounds :
    min 0 (f.den - (1 - (T.wbias : Int))) ≤ (scaleOf T f x).ediff ∧
    (scaleOf T f x).ediff ≤ max 0 (f.den - (1 - (T.wbias : Int))) := by
  rw [scaleOf, scale]
  split
  · exact ⟨min_le_right _ _, le_max_right _ _⟩
  · simp only
    split <;> omega

/-- No exponent of a finite input is further above the narrow denormals' than the binade. -/
theorem binade_le (hfin : isSpecial T x = false) : (binade T f x : Int) ≤ max 0 (T.wbias - f.den) := by
  have hact := scale_act_le_wbias T f x hfin
  unfold binade
  rcases scale_aligned_exponent T f x with h | ⟨h, h0, -⟩ <;> omega

end Scale

section RoundIn
variable {f : Format} (hf : f.defined = true) (T : WideType) (rm : RoundMode) (rng x : Nat)
include hf

/-- The alignment sets no bit above the leading 1. -/
theorem roundIn_mant_lt : (roundIn T f rm rng x).mant < 2 ^ (T.mfmt + 1) := by
  have hq := (roundIn_quotient hf T rm rng x).1
  have hexp : T.mfmt + 1 = f.wm + 1 + (roundIn T f rm rng x).drop := by
    have hwidth : T.mfmt = (roundIn T f rm rng x).drop + f.wm := dropWidth_add_wm hf T
    omega
  rwa [← (roundIn_aligned hf T rm rng x).mant_div, Nat.div_lt_iff_lt_mul (Nat.two_pow_pos _), ← pow_succ', ← pow_add,
    ← hexp] at hq

/-- The tentative exponent field is not 0 exactly when the aligned mantissa has a leading 1 (R84). -/
theorem one_le_f8Exp_iff : 1 ≤ (roundIn T f rm rng x).f8Exp ↔ bit (roundIn T f rm rng x).mant T.mfmt = 1 := by
  have hleading : 2 ^ T.mfmt ≤ (roundIn T f rm rng x).mant ↔ 2 ^ f.wm ≤ (roundIn T f rm rng x).quotient := by
    rw [← (roundIn_aligned hf T rm rng x).mant_div, Nat.le_div_iff_mul_le (Nat.two_pow_pos _), ← pow_add, dropWidth_add_wm hf T,
      add_comm]
    rfl
  rw [bit_eq_one_iff (roundIn_mant_lt hf T rm rng x), hleading, roundIn_f8Exp hf]
  split <;> rename_i h <;> simp [h]

/-- The tentative exponent field counts the input's binades from 1, or is 0 (R70). -/
theorem roundIn_f8Exp_bounds :
    0 ≤ (roundIn T f rm rng x).f8Exp ∧ (roundIn T f rm rng x).f8Exp ≤ binade T f x + 1 := by
  rw [roundIn_f8Exp hf]
  split <;> omega

/-- The sum of mantissa and addend stays below the second bit above the leading 1 (R84). -/
theorem roundIn_sum_bounds :
    (roundIn T f rm rng x).sum < 2 ^ (T.mfmt + 1) + 2 ^ (roundIn T f rm rng x).drop - 1 ∧
    (roundIn T f rm rng x).sum < 2 ^ (T.mfmt + 2) := by
  have hmant := roundIn_mant_lt hf T rm rng x
  have haddend := (roundIn T f rm rng x).addend_lt
  have hdrop : 2 ^ (roundIn T f rm rng x).drop ≤ 2 ^ (T.mfmt + 1) :=
    Nat.pow_le_pow_right two_pos ((Nat.sub_le T.mfmt f.wm).trans (Nat.le_succ _))
  rw [pow_succ 2 (T.mfmt + 1), RoundIn.sum]
  omega

end RoundIn

/-- The numbers of R84 for the admitted formats: how many bits are dropped, and where the narrow denormals lie. -/
theorem admitted_format_bounds {f : Format} (hwf : f.wf = true) (T : WideType) :
    7 ≤ dropWidth T f ∧ dropWidth T f ≤ 21 ∧ -15 ≤ f.den ∧ f.den ≤ -6 ∧ 7 ≤ dropWidth T f + (f.den - (1 - (T.wbias : Int))) := by
  rcases (Format.wf_iff f).1 hwf with rfl | rfl | rfl | rfl <;> cases T <;> decide

/-- Settles O32: each signal's own bound, at the numbers of the admitted formats. -/
theorem datapathBounds : Obligations.DatapathBounds := by
  intro T f rm rng x hwf _ hfin u act
  have hf := Format.defined_of_wf hwf
  have ha : u.Aligned := roundIn_aligned hf T rm rng x
  have hwbias : T.wbias ≤ 127 := by cases T <;> decide
  obtain ⟨hdropLo, hdropHi, hdenLo, hdenHi, hdiscarded⟩ := admitted_format_bounds hwf T
  have hdrop : u.drop = dropWidth T f := rfl
  have hactLo : 1 - (T.wbias : Int) ≤ act := one_sub_wbias_le_scale_act T f x
  have hactHi : act ≤ T.wbias := scale_act_le_wbias T f x hfin
  have hediff : -1 ≤ u.ediff := ha.neg_one_le_ediff
  have hediffBounds : min 0 (f.den - (1 - (T.wbias : Int))) ≤ u.ediff ∧ u.ediff ≤ max 0 (f.den - (1 - (T.wbias : Int))) :=
    scale_ediff_bounds T f x
  have hbinade := binade_le T f x hfin
  have hf8Exp : 0 ≤ u.f8Exp ∧ u.f8Exp ≤ binade T f x + 1 := roundIn_f8Exp_bounds hf T rm rng x
  have hout := u.out_f8Exp_bounds
  have hsum := roundIn_sum_bounds hf T rm rng x
  have hhalf : 64 ≤ 2 ^ (u.drop - 1) := Nat.pow_le_pow_right (i := 6) two_pos (by omega)
  refine ⟨scale_mantPre_lt T f x, roundIn_mant_lt hf T rm rng x, u.addend_lt,
    fun hmid => ⟨hhalf, ha.half_le_mant_of_tie (u.midpoint_iff.1 hmid)⟩, hsum.1, bit_eq_zero_of_lt hsum.2,
    ?_, ?_, hediff, ?_, ?_, ?_, hf8Exp.1, ?_, ?_, ?_, one_le_f8Exp_iff hf T rm rng x⟩ <;> omega

end Sys2Proof.Machine
end

section
/-! PROOFS. A wide pattern is determined by its sign and its magnitude (43_decoder.md R100). -/

namespace Sys2Proof.Machine

/-- Below its sign a wide pattern is valued as a narrow pattern is, with the widths of its own fields (40_formats.md R47, R48, R55). -/
theorem wideMag_eq_narrowMag (T : WideType) (x : Nat) :
    wideMag T x = narrowMag { wm := T.mfmt, we := T.weo, nzn := false } (x % 2 ^ (T.weo + T.mfmt)) := by
  have hbias : Format.bias { wm := T.mfmt, we := T.weo, nzn := false } = T.wbias := by cases T <;> rfl
  have hexp : x % 2 ^ (T.weo + T.mfmt) / 2 ^ T.mfmt = x / 2 ^ T.mfmt % 2 ^ T.weo := by
    rw [add_comm, pow_add, Nat.mod_mul_right_div_self]
  have hman : x % 2 ^ (T.weo + T.mfmt) % 2 ^ T.mfmt = x % 2 ^ T.mfmt :=
    Nat.mod_mod_of_dvd x (pow_dvd_pow 2 (Nat.le_add_left _ _))
  rw [wideMag, decompose_eq_div_mod, narrowMag, hbias, Nat.shiftRight_eq_div_pow, hexp, hman]

theorem decompose_sign_eq_div {T : WideType} {x : Nat} (hx : x < 2 ^ T.width) :
    (decompose T x).sign = x / 2 ^ (T.weo + T.mfmt) := by
  have hwidth : 2 ^ T.width = 2 ^ (T.weo + T.mfmt) * 2 := by cases T <;> rfl
  rw [decompose_eq_div_mod]
  exact Nat.mod_eq_of_lt (Nat.div_lt_of_lt_mul (hwidth ▸ hx))

/-- The magnitude orders the patterns below the sign strictly, so with the sign it determines the pattern. -/
theorem eq_of_sign_eq_of_wideMag_eq {T : WideType} {x x' : Nat} (hx : x < 2 ^ T.width) (hx' : x' < 2 ^ T.width)
    (hsign : (decompose T x).sign = (decompose T x').sign) (hmag : wideMag T x = wideMag T x') : x = x' := by
  rw [decompose_sign_eq_div hx, decompose_sign_eq_div hx'] at hsign
  rw [wideMag_eq_narrowMag, wideMag_eq_narrowMag, (narrowMag_strictMono _).injective.eq_iff] at hmag
  rw [← Nat.div_add_mod x (2 ^ (T.weo + T.mfmt)), hsign, hmag, Nat.div_add_mod]

/-- At most one wide pattern has the sign and the magnitude of a narrow one. -/
theorem IsExactImage.unique {T : WideType} {f : Format} {y w w' : Nat} (h : IsExactImage T f y w) (h' : IsExactImage T f y w') :
    w = w' := by
  obtain ⟨hlt, -, hsign, hmag⟩ := h
  obtain ⟨hlt', -, hsign', hmag'⟩ := h'
  exact eq_of_sign_eq_of_wideMag_eq hlt hlt' (hsign.trans hsign'.symm) (hmag.trans hmag'.symm)

/-- Beyond step 2 a pattern is finite: infinities and NaNs have left (R92). -/
theorem isFinite_of_decodeSpecial {T : WideType} {f : Format} (hf : f.defined = true) {nan y : Nat} (hy : y < 256)
    (h : decodeSpecial nan T f y = none) : isNarrowNaN f y = false ∧ isNarrowInf f y = false := by
  rw [← Bool.not_eq_true, ← Bool.not_eq_true]
  exact ⟨fun hnan => by simp [decodeSpecial_of_nan hf hy nan T hnan] at h,
    fun hinf => by simp [decodeSpecial_of_inf hf hy nan T hinf] at h⟩

/-- Settles O40: both paths give the exact image of the narrow pattern, and there is one only. -/
theorem fastPathEqualsGeneralPath : Obligations.FastPathEqualsGeneralPath := by
  intro T f nan y hwf hy hfast hnone
  have hf := Format.defined_of_wf hwf
  obtain ⟨hnan, hinf⟩ := isFinite_of_decodeSpecial hf hy hnone
  have hmax := narrowFields_exponent_le_maxExp hf hy hnan hinf
  exact (decodeGeneral_exact hf hy T (magnitude_ne_zero_of_decodeSpecial hy hnone) hmax).unique
    (fastPath_exact hf hy hfast hmax)

end Sys2Proof.Machine
end

section
/-! PROOFS. The fields that the decoder's general path packs (43_decoder.md R95 to R97). -/

namespace Sys2Proof.Machine

/-- The rebiased mantissa fits the wide field: the shift fills the width difference. -/
theorem rebias_mantissa_lt {f : Format} (hf : f.defined = true) (T : WideType) {n : Normalized} (hm : n.mantissa < 2 ^ f.wm) :
    (rebias T f n).mantissa < 2 ^ T.mfmt := by
  have hwidth : 2 ^ T.mfmt = 2 ^ f.wm * 2 ^ (T.mfmt - f.wm) := by
    rw [← pow_add, add_comm]; exact congrArg _ (dropWidth_add_wm hf T)
  rw [rebias, Nat.shiftLeft_eq, hwidth]
  exact Nat.mul_lt_mul_of_pos_right hm (Nat.two_pow_pos _)

/-- Step 6 leaves fields of a finite wide pattern: a deficit shifts the leading 1 into the mantissa field. -/
theorem denormalize_fitsWide {T : WideType} {n : Normalized} (hm : n.mantissa < 2 ^ T.mfmt) (he : n.exponent < 2 ^ T.weo - 1) :
    (denormalize T n).FitsWide T := by
  have hT : (0 : Int) < 2 ^ T.weo - 1 := by cases T <;> decide
  rw [denormalize]
  split
  · rename_i hle
    have hor : n.mantissa ||| 2 ^ T.mfmt < 2 ^ (T.mfmt + 1) :=
      Nat.or_lt_two_pow (hm.trans (Nat.pow_lt_pow_succ one_lt_two)) (Nat.pow_lt_pow_succ one_lt_two)
    refine ⟨le_rfl, hT, ?_⟩
    rw [Nat.shiftRight_eq_div_pow, Nat.div_lt_iff_lt_mul (Nat.two_pow_pos _), ← pow_add]
    exact hor.trans_le (Nat.pow_le_pow_right two_pos (by omega))
  · exact ⟨by omega, he, hm⟩

/-- The largest rebiased exponents (R97) are those of `max_exp`, and leave the all-ones exponent free. -/
theorem maxExp_rebiased_le {f : Format} (hwf : f.wf = true) (T : WideType) :
    (f.maxExp : Int) + (T.wbias - f.bias) ≤ (match T with | .s => 142 | .h => if f.wm = 3 then 22 else 30) ∧
    (f.maxExp : Int) + (T.wbias - f.bias) < 2 ^ T.weo - 1 := by
  rcases (Format.wf_iff f).1 hwf with rfl | rfl | rfl | rfl <;> cases T <;> decide

/-- Settles O42: normalization raises no exponent above that of the pattern, which is at most `max_exp`. -/
theorem decodedFieldsFit : Obligations.DecodedFieldsFit := by
  intro T f nan y hwf hy hnone n d
  have hf := Format.defined_of_wf hwf
  obtain ⟨hnan, hinf⟩ := isFinite_of_decodeSpecial hf hy hnone
  have hmax := narrowFields_exponent_le_maxExp hf hy hnan hinf
  obtain ⟨-, hexp, hmant, -⟩ := normalizeNarrow_spec hf hy (magnitude_ne_zero_of_decodeSpecial hy hnone)
  obtain ⟨hbound, hfinite⟩ := maxExp_rebiased_le hwf T
  have hn : n.exponent ≤ f.maxExp + (T.wbias - f.bias) := by
    show (normalizeNarrow f (narrowFields f y)).exponent + (T.wbias - f.bias : Int) ≤ _
    omega
  obtain ⟨hd0, hd, hdm⟩ : d.FitsWide T := denormalize_fitsWide (rebias_mantissa_lt hf T hmant) (hn.trans_lt hfinite)
  exact ⟨hn.trans hbound, hd0, by omega, hdm⟩

end Sys2Proof.Machine
end

section
/-! PROOFS. The decode operations by class of the narrow pattern (43_decoder.md R92, R98 to R100). -/

namespace Sys2Proof.Machine

theorem narrowOperand_lt (src : Word) : narrowOperand src < 256 := Nat.mod_lt _ (by decide)

/-- The wide infinity has an all-ones exponent and mantissa 0 (40_formats.md R49). -/
theorem decompose_wideInf (T : WideType) {sign : Nat} (hs : sign < 2) :
    decompose T (wideInf T sign) = { sign := sign, exponent := 2 ^ T.weo - 1, mantissa := 0 } := by
  interval_cases sign <;> cases T <;> decide

theorem isSpecial_wideInf (T : WideType) {sign : Nat} (hs : sign < 2) : isSpecial T (wideInf T sign) = true := by
  rw [isSpecial, decompose_wideInf T hs, beq_self_eq_true]

theorem isSpecial_decNan (T : WideType) : isSpecial T (decNan T) = true ∧ (decompose T (decNan T)).mantissa ≠ 0 := by
  simpa [isWideNaN] using (decoderNaNIsNaN T).1

/-- What the decoder gives for each class of narrow patterns. -/
theorem dec_cases {f : Format} (hf : f.defined = true) {y : Nat} (hy : y < 256) (T : WideType) :
    (isNarrowNaN f y = true ∧ dec T f y = decNan T) ∨
    (isNarrowNaN f y = false ∧ isNarrowInf f y = true ∧ dec T f y = wideInf T (y / 128)) ∨
    (isNarrowNaN f y = false ∧ isNarrowInf f y = false ∧ IsExactImage T f y (dec T f y)) := by
  obtain ⟨hnan, hinf, hfin⟩ := decoderIsExactWhereDefined T f (decNan T) y hf hy
  cases hn : isNarrowNaN f y with
  | true => exact .inl ⟨rfl, hnan hn⟩
  | false =>
    cases hi : isNarrowInf f y with
    | true => exact .inr (.inl ⟨rfl, rfl, hinf hi⟩)
    | false => exact .inr (.inr ⟨rfl, rfl, hfin hn hi⟩)

theorem dec_lt {f : Format} (hf : f.defined = true) {y : Nat} (hy : y < 256) (T : WideType) : dec T f y < 2 ^ T.width := by
  rcases dec_cases hf hy T with ⟨-, h⟩ | ⟨-, -, h⟩ | ⟨-, -, h, -⟩
  · exact h ▸ (decoderNaNIsNaN T).2
  · exact h ▸ wideInf_lt T (by omega)
  · exact h

/-- A decode operation answers with the decoder's pattern, zero-extended (30_encoding.md R39). -/
theorem exec_dec (T : WideType) {f : Format} (hwf : f.wf = true) (s : State) :
    exec (Instr.dec T f) s = .next (s.setDst (BitVec.ofNat 32 (dec T f (narrowOperand s.src)))) := by
  refine exec_next_iff.2 ⟨(dec_wf T f).trans hwf, ?_⟩
  rw [dec_value, wideResult_eq_ofNat (dec_lt (Format.defined_of_wf hwf) (narrowOperand_lt _) T)]

/-- Settles O37: the decoder is exact on the wider domain of 00_scope.md R9 (O45), with `DEC_NAN_T` for the NaN. -/
theorem decodeIsExact : Obligations.DecodeIsExact := by
  intro T f s hwf y
  have hf := Format.defined_of_wf hwf
  have hy : y < 256 := narrowOperand_lt s.src
  obtain ⟨hnan, hinf, hfin⟩ := decoderIsExactWhereDefined T f (decNan T) y hf hy
  exact ⟨dec T f y, dec_lt hf hy T, exec_dec T hwf s, hnan, hinf, fun hn hi => (hfin hn hi).2⟩

end Sys2Proof.Machine
end

section
/-! PROOFS. Which decoded values are wide denormals (43_decoder.md R93, R96, R98). -/

namespace Sys2Proof.Machine

/-- The wide denormals are the nonzero magnitudes below that of the smallest normal. -/
theorem isWideDenormal_iff (T : WideType) (x : Nat) :
    isWideDenormal T x = true ↔ wideMag T x ≠ 0 ∧ wideMag T x < 2 ^ (150 - T.wbias) := by
  have hmant := decompose_mantissa_lt T x
  have hsmallest : 2 ^ (150 - T.wbias) = 2 ^ T.mfmt * 2 ^ (150 - T.wbias - T.mfmt) := by cases T <;> decide
  have hunit : 0 < 2 ^ (150 - T.wbias - T.mfmt) := Nat.two_pow_pos _
  rw [hsmallest, wideMag, Nat.mul_ne_zero_iff, Nat.mul_lt_mul_right hunit]
  by_cases hexp : (decompose T x).exponent = 0
  · simp [isWideDenormal, hexp, hmant]
  · have hnormal : 2 ^ T.mfmt ≤ (2 ^ T.mfmt + (decompose T x).mantissa) * 2 ^ ((decompose T x).exponent - 1) :=
      (Nat.le_add_right _ _).trans (Nat.le_mul_of_pos_right _ (Nat.two_pow_pos _))
    simp [isWideDenormal, hexp, hnormal]

/-- Infinities and NaNs are no denormals: their exponent field is not 0. -/
theorem not_isWideDenormal_of_isSpecial {T : WideType} {x : Nat} (h : isSpecial T x = true) : isWideDenormal T x ≠ true := by
  have hexp : (decompose T x).exponent = 2 ^ T.weo - 1 := beq_iff_eq.1 h
  have hT : 2 ^ T.weo - 1 ≠ 0 := by cases T <;> decide
  simp [isWideDenormal, hexp, hT]

/-- Where `b` is the last narrow pattern of a magnitude below the smallest wide normal, the patterns `1 .. b` of either sign decode
to wide denormals, and no others. -/
theorem isWideDenormal_dec_iff {f : Format} (hf : f.defined = true) {y : Nat} (hy : y < 256) (T : WideType) {b : Nat}
    (hb : b ≤ f.cmax) (hlast : narrowMag f b < 2 ^ (150 - T.wbias)) (hnext : 2 ^ (150 - T.wbias) ≤ narrowMag f (b + 1)) :
    isWideDenormal T (dec T f y) = true ↔ 1 ≤ y % 128 ∧ y % 128 ≤ b := by
  have hmono := narrowMag_strictMono f
  have hfinite (h : 1 ≤ y % 128 ∧ y % 128 ≤ b) : isNarrowNaN f y = false ∧ isNarrowInf f y = false :=
    isFinite_of_magnitude_le hf hy (h.2.trans hb) (fun _ => by omega)
  rcases dec_cases hf hy T with ⟨hn, h⟩ | ⟨-, hi, h⟩ | ⟨-, -, -, -, -, hmag⟩
  · rw [h]
    exact iff_of_false (not_isWideDenormal_of_isSpecial (isSpecial_decNan T).1) fun hle => by simp [(hfinite hle).1] at hn
  · rw [h]
    exact iff_of_false (not_isWideDenormal_of_isSpecial (isSpecial_wideInf T (by omega))) fun hle => by simp [(hfinite hle).2] at hi
  · have hzero : narrowMag f (y % 128) ≠ 0 ↔ 1 ≤ y % 128 := by
      rw [← narrowMag_zero f, hmono.injective.ne_iff, Nat.one_le_iff_ne_zero]
    have hbelow : narrowMag f (y % 128) < 2 ^ (150 - T.wbias) ↔ y % 128 ≤ b := by
      rw [← Nat.lt_succ_iff]
      refine ⟨fun h => hmono.lt_iff_lt.1 (h.trans_le hnext), fun h => ?_⟩
      exact (hmono.monotone (Nat.lt_succ_iff.1 h)).trans_lt hlast
    rw [isWideDenormal_iff, hmag, hzero, hbelow]

/-- The last pattern below the smallest normal of binary32: only 0, in every format. -/
theorem binary32_smallestNormal_bracket {f : Format} (hwf : f.wf = true) :
    narrowMag f 0 < 2 ^ (150 - WideType.s.wbias) ∧ 2 ^ (150 - WideType.s.wbias) ≤ narrowMag f (0 + 1) := by
  rcases (Format.wf_iff f).1 hwf with rfl | rfl | rfl | rfl <;> decide

/-- Settles O43: below the smallest normal lie, besides 0, for binary32 and for `E4M3` in binary16 no pattern, and in binary16 the
three denormals of `E5M2` and, its bias being one more, the first seven patterns of `E5M2.NZN`. -/
theorem whichDecodedValuesAreDenormal : Obligations.WhichDecodedValuesAreDenormal := by
  intro f s hwf y
  have hf := Format.defined_of_wf hwf
  have hy : y < 256 := narrowOperand_lt s.src
  have hdst (T : WideType) : (BitVec.ofNat 32 (dec T f y)).toNat = dec T f y := by
    have := dec_lt hf hy T
    rw [← wideResult_eq_ofNat this, wideResult_toNat, Nat.mod_eq_of_lt this]
  refine ⟨⟨_, exec_dec .s hwf s, ?_⟩, ⟨_, exec_dec .h hwf s, ?_⟩⟩ <;> rw [State.setDst_dst, hdst]
  · obtain ⟨hlast, hnext⟩ := binary32_smallestNormal_bracket hwf
    rw [← Bool.not_eq_true, isWideDenormal_dec_iff hf hy .s (Nat.zero_le _) hlast hnext]
    omega
  · rcases (Format.wf_iff f).1 hwf with rfl | rfl | rfl | rfl
    · rw [isWideDenormal_dec_iff hf hy .h (b := 0) (by decide) (by decide) (by decide)]
      exact iff_of_false (by omega) (by simp [e4m3, e5m2, e5m2Nzn])
    · rw [isWideDenormal_dec_iff hf hy .h (b := 0) (by decide) (by decide) (by decide)]
      exact iff_of_false (by omega) (by simp [e4m3Nzn, e5m2, e5m2Nzn])
    · rw [isWideDenormal_dec_iff hf hy .h (b := 3) (by decide) (by decide) (by decide)]
      simp [e5m2, e5m2Nzn]
    · rw [isWideDenormal_dec_iff hf hy .h (b := 7) (by decide) (by decide) (by decide)]
      simp [e5m2, e5m2Nzn]

end Sys2Proof.Machine
end

section
/-! PROOFS. Encoding what was decoded (43_decoder.md R101). -/

namespace Sys2Proof.Machine

/-- Where no bit is discarded both rounding modes retain the mantissa as it is: no addend reaches the retained part. -/
theorem RoundIn.Aligned.retained_of_exact {u : RoundIn} (h : u.Aligned) (hexact : u.remainder = 0) : u.retained = u.quotient := by
  have hmod : u.mant % 2 ^ u.drop = 0 := by rw [h.mant_mod, hexact]; simp
  rw [u.retained_eq, h.mant_div, hmod, zero_add, Nat.div_eq_of_lt u.addend_lt, add_zero]

/-- An input with the magnitude of an element rounds to that element, in either mode and for any random bits. -/
theorem roundedElement_of_wideMag_eq {f : Format} (hf : f.defined = true) (T : WideType) (rm : RoundMode) (rng : Nat) {x c : Nat}
    (hc : c ≤ f.cmax + 1) (hmag : wideMag T x = narrowMag f c) : roundedElement T f rm rng x = c := by
  have hmono := narrowMag_strictMono f
  obtain ⟨hlo, hhi⟩ := lowerPattern_bracket hf T x
  rw [hmag, hmono.le_iff_le] at hlo
  rw [hmag, hmono.lt_iff_lt] at hhi
  have hlower : lowerPattern T f x = c := by omega
  have hexact : (roundIn T f rm rng x).remainder = 0 := by
    obtain ⟨unit, hunit, hinput, -⟩ := candidate_magnitudes hf T rm rng x
    rw [hlower, hmag] at hinput
    exact (Nat.mul_eq_zero.1 (Nat.left_eq_add.1 hinput)).resolve_right hunit.ne'
  rw [roundedElement, (roundIn_aligned hf T rm rng x).retained_of_exact hexact, ← lowerPattern_eq, hlower, min_eq_left hc]

/-- A finite narrow pattern is at most `cmax`. -/
theorem magnitude_le_cmax {f : Format} (hf : f.defined = true) {y : Nat} (hy : y < 256) (hnan : isNarrowNaN f y = false)
    (hinf : isNarrowInf f y = false) : y % 128 ≤ f.cmax := by
  have hmax := narrowFields_exponent_le_maxExp hf hy hnan hinf
  rw [narrowFields_of_defined hf hy, ← Nat.lt_succ_iff, Nat.div_lt_iff_lt_mul (Nat.two_pow_pos _), ← Format.cmax_add_one] at hmax
  exact Nat.lt_succ_iff.1 hmax

/-- The case table of R80 at a finite pattern's own sign and magnitude is the pattern: there is no negative zero under `nzn`. -/
theorem roundedPattern_of_finite {f : Format} (hf : f.defined = true) {y : Nat} (hy : y < 256) (hnan : isNarrowNaN f y = false)
    (hinf : isNarrowInf f y = false) (clip : Bool) : roundedPattern f clip (y / 128) (y % 128) = y := by
  have hle := magnitude_le_cmax hf hy hnan hinf
  have hsign : (if y % 128 = 0 ∧ f.nzn = true then 0 else y / 128) = y / 128 := by
    refine ite_eq_right_iff.2 fun ⟨h0, hn⟩ => ?_
    have hne : y ≠ 0x80 := by simpa [isNarrowNaN, hn] using hnan
    omega
  rw [roundedPattern_eq hf clip _ (by omega), hsign, clippedElement_of_le hle]
  omega

/-- The infinity patterns are the patterns `signed_inf` (R63). -/
theorem signedInf_of_isNarrowInf {f : Format} (hf : f.defined = true) {y : Nat} (hy : y < 256) (h : isNarrowInf f y = true) :
    f.nzn = false ∧ f.signedInf (y / 128) = y := by
  obtain ⟨⟨hnzn, hexp⟩, hmant⟩ : (f.nzn = false ∧ (narrowFields f y).exponent = 2 ^ f.we - 1) ∧
      (narrowFields f y).mantissa = 0 := by simpa [isNarrowInf] using h
  have hmag := Nat.div_add_mod' (y % 128) (2 ^ f.wm)
  rw [narrowFields_of_defined hf hy] at hexp hmant
  dsimp only at hexp hmant
  rw [hexp, hmant] at hmag
  refine ⟨hnzn, ?_⟩
  rw [Format.signedInf, Nat.shiftLeft_eq, Nat.shiftLeft_eq]
  omega

theorem wideOperand_ofNat {T : WideType} {w : Nat} (hw : w < 2 ^ T.width) : wideOperand T (BitVec.ofNat 32 w) = w := by
  rw [← wideResult_eq_ofNat hw, wideOperand_eq_mod, wideResult_toNat, Nat.mod_mod, Nat.mod_eq_of_lt hw]

/-- What an encode operation gives on the wide pattern that `y` decodes to. -/
theorem exec_enc_of_dec (T : WideType) (rm : RoundMode) {f : Format} (hwf : f.wf = true) (clip : Bool) {s : State} {y : Nat}
    (hy : y < 256) (hsrc : wideOperand T s.src = dec T f y) :
    exec (Instr.enc T rm f clip) s = .next (s.setDst (BitVec.ofNat 32
      (if isNarrowNaN f y ∧ f.nzn = false then f.signedInf (bit (decNan T) (T.width - 1)) + 1 else y))) := by
  have hf := Format.defined_of_wf hwf
  rcases dec_cases hf hy T with ⟨hnan, hdec⟩ | ⟨hnan, hinf, hdec⟩ | ⟨hnan, hinf, -, hfin, hsign, hmag⟩
  · obtain ⟨hspecial, hmant⟩ := isSpecial_decNan T
    rw [exec_enc_of_special T rm hwf clip (by rw [hsrc, hdec, hspecial]), hsrc, hdec, encodeSpecial, if_pos hmant]
    cases hn : f.nzn with
    | true =>
      obtain rfl : y = 0x80 := by simpa [isNarrowNaN, hn] using hnan
      simp
    | false =>
      rw [if_neg Bool.false_ne_true, if_pos ⟨hnan, rfl⟩]
      rfl
  · obtain ⟨hn, hpattern⟩ := signedInf_of_isNarrowInf hf hy hinf
    have hs : y / 128 < 2 := by omega
    rw [exec_enc_of_special T rm hwf clip (by rw [hsrc, hdec, isSpecial_wideInf T hs]), hsrc, hdec, decompose_wideInf T hs,
      encodeSpecial, hpattern]
    simp [hn, hnan]
  · have hle := magnitude_le_cmax hf hy hnan hinf
    rw [← hsrc] at hfin hsign hmag
    rw [exec_enc_of_finite T rm hwf clip hfin, hsign, roundedElement_of_wideMag_eq hf T rm _ (by omega) hmag,
      roundedPattern_of_finite hf hy hnan hinf]
    simp [hnan]

/-- Settles O39: a special pattern comes back through step 2 of both converters; the image of a finite one is exact, so it is
rounded to the element it came from. -/
theorem encodeOfDecodedIsIdentity : Obligations.EncodeOfDecodedIsIdentity := by
  intro T rm f clip s rng hwf y
  have hy : y < 256 := narrowOperand_lt s.src
  exact ⟨_, exec_dec T hwf s,
    exec_enc_of_dec T rm hwf clip hy (wideOperand_ofNat (dec_lt (Format.defined_of_wf hwf) hy T))⟩

end Sys2Proof.Machine
end

section
/-! PROOFS. The conditions that IEEE 754 calls exceptions, absorbed into the results of the encode operations (60_exceptions.md
R102). -/

namespace Sys2Proof.Machine

/-- An 8-bit result is read back from `dst` as it is. -/
theorem toNat_ofNat_of_lt_256 {y : Nat} (hy : y < 256) : (BitVec.ofNat 32 y).toNat = y := by
  rw [← narrowResult_eq_ofNat hy, narrowResult_toNat]
  exact Nat.mod_eq_of_lt hy

/-- What step 2 makes of a NaN is a narrow NaN: `0x80` under `nzn`, else the pattern after `signed_inf` (R64). -/
theorem isNarrowNaN_encodeSpecial {f : Format} (hf : f.defined = true) {w : WideFields} (hs : w.sign < 2) (hm : w.mantissa ≠ 0) :
    isNarrowNaN f (encodeSpecial f w) = true := by
  cases hn : f.nzn with
  | true => simp [isNarrowNaN, encodeSpecial, hn]
  | false =>
    have hwm := ((Format.defined_iff f).1 hf).2.1
    obtain ⟨hfields, -⟩ := narrowFields_signedInf hf hs (m := 1) (Nat.one_lt_two_pow (by omega))
    simp [isNarrowNaN, encodeSpecial, hn, hm, hfields]

/-- An exponent beyond `max_exp` makes a pattern beyond `cmax` (R73). -/
theorem RoundOut.cmax_lt_code {f : Format} {o : RoundOut} (h : overflows f o = true) (drop : Nat) : f.cmax + 1 ≤ o.code f drop := by
  have hover : (f.maxExp : Int) < o.f8Exp := of_decide_eq_true h
  calc f.cmax + 1 = (f.maxExp + 1) * 2 ^ f.wm := f.cmax_add_one
    _ ≤ o.f8Exp.toNat * 2 ^ f.wm := Nat.mul_le_mul_right _ (by omega)
    _ ≤ o.code f drop := Nat.le_add_right _ _

/-- Exponent field 0 makes a denormal pattern or zero. -/
theorem RoundOut.code_lt_of_f8Exp_eq_zero {o : RoundOut} (h : o.f8Exp = 0) (f : Format) (drop : Nat) : o.code f drop < 2 ^ f.wm := by
  rw [RoundOut.code, h, Int.toNat_zero, zero_mul, zero_add]
  exact Nat.mod_lt _ (Nat.two_pow_pos _)

/-- The rounded element is the pattern that the rounding unit's exponent and mantissa make, cut at `cmax + 1`. -/
theorem roundedElement_eq_min_code {f : Format} (hf : f.defined = true) (T : WideType) (rm : RoundMode) (rng x : Nat) :
    roundedElement T f rm rng x = min ((roundIn T f rm rng x).out.code f (dropWidth T f)) (f.cmax + 1) := by
  rw [(roundIn_out_code hf T rm rng x).2, roundedElement]

/-- The overflow row of R80's table: the largest finite pattern or `signed_inf`, with the sign. -/
theorem roundedPattern_of_overflow {f : Format} (hf : f.defined = true) (clip : Bool) (sign : Nat) :
    roundedPattern f clip sign (f.cmax + 1) = sign * 2 ^ 7 + (if clip then f.cmax else (2 ^ f.we - 1) * 2 ^ f.wm) := by
  rw [roundedPattern_eq hf clip sign le_rfl, if_neg (by omega)]
  cases clip <;> simp [Format.signedInf, Nat.shiftLeft_eq]

/-- An element below the first normal one has exponent field 0, with either sign and whatever the clip policy. -/
theorem narrowFields_exponent_roundedPattern {f : Format} (hf : f.defined = true) (clip : Bool) {sign c : Nat} (hs : sign < 2)
    (hc : c < 2 ^ f.wm) : (narrowFields f (roundedPattern f clip sign c)).exponent = 0 := by
  have hcmax : c ≤ f.cmax := by
    have hone : 2 ^ f.wm ≤ (f.maxExp + 1) * 2 ^ f.wm := Nat.le_mul_of_pos_left _ (Nat.succ_pos _)
    have htop := f.cmax_add_one
    omega
  obtain ⟨hlt, -, hmag⟩ := roundedPattern_sign_magnitude hf clip hs (Nat.le_succ_of_le hcmax)
  rw [narrowFields_of_defined hf hlt, hmag, clippedElement_of_le hcmax]
  exact Nat.div_eq_of_lt hc

section Conditions
variable {T : WideType} {f : Format} {rm : RoundMode} {rng x : Nat}

theorem conditionMet_invalid_iff :
    conditionMet .invalid T f rm rng x = true ↔ isSpecial T x = true ∧ (decompose T x).mantissa ≠ 0 := by
  simp [conditionMet]

theorem conditionMet_overflow_iff :
    conditionMet .overflow T f rm rng x = true ↔
      isSpecial T x = false ∧ x ≠ 0 ∧ overflows f (roundIn T f rm rng x).out = true := by
  simp [conditionMet, and_assoc]

theorem conditionMet_underflow_iff :
    conditionMet .underflow T f rm rng x = true ↔
      isSpecial T x = false ∧ x ≠ 0 ∧ (roundIn T f rm rng x).out.f8Exp = 0 := by
  simp [conditionMet, and_assoc]

theorem roundedElement_of_overflow (hf : f.defined = true) (h : conditionMet .overflow T f rm rng x = true) :
    roundedElement T f rm rng x = f.cmax + 1 := by
  obtain ⟨-, -, hover⟩ := conditionMet_overflow_iff.1 h
  rw [roundedElement_eq_min_code hf, min_eq_right (RoundOut.cmax_lt_code hover _)]

theorem roundedElement_of_underflow (hf : f.defined = true) (h : conditionMet .underflow T f rm rng x = true) :
    roundedElement T f rm rng x < 2 ^ f.wm := by
  obtain ⟨-, -, hexp⟩ := conditionMet_underflow_iff.1 h
  rw [roundedElement_eq_min_code hf]
  exact (min_le_left _ _).trans_lt (RoundOut.code_lt_of_f8Exp_eq_zero hexp f _)

end Conditions

/-- Settles O30: a special input can only be invalid, and step 2 answers it; a finite one can only overflow or underflow, and its
rounded element is then `cmax + 1` or below the first normal one. -/
theorem conditionsAreAbsorbedIntoResults : Obligations.ConditionsAreAbsorbedIntoResults := by
  intro T rm f clip s hwf x rng
  have hf := Format.defined_of_wf hwf
  have hs : (decompose T x).sign < 2 := decompose_sign_lt T x
  cases hspecial : isSpecial T x with
  | true =>
    refine ⟨_, exec_enc_of_special T rm hwf clip hspecial, fun hinvalid => ?_, fun hover => ?_, fun hunder => ?_⟩
    · obtain ⟨-, hm⟩ := conditionMet_invalid_iff.1 hinvalid
      rw [toNat_ofNat_of_lt_256 (dec_encodeSpecial hf T hs).1]
      exact isNarrowNaN_encodeSpecial hf hs hm
    · obtain ⟨hfin, -⟩ := conditionMet_overflow_iff.1 hover
      exact absurd (hfin.symm.trans hspecial) Bool.false_ne_true
    · obtain ⟨hfin, -⟩ := conditionMet_underflow_iff.1 hunder
      exact absurd (hfin.symm.trans hspecial) Bool.false_ne_true
  | false =>
    refine ⟨BitVec.ofNat 32 (roundedPattern f clip (decompose T x).sign (roundedElement T f rm rng x)),
      exec_enc_of_finite T rm hwf clip hspecial, ?_⟩
    rw [toNat_ofNat_of_lt_256 (roundedPattern_sign_magnitude hf clip hs (roundedElement_le T f rm rng x)).1]
    refine ⟨fun hinvalid => ?_, fun hover => ?_, fun hunder => ?_⟩
    · obtain ⟨hspecial', -⟩ := conditionMet_invalid_iff.1 hinvalid
      exact absurd (hspecial.symm.trans hspecial') Bool.false_ne_true
    · rw [roundedElement_of_overflow hf hover, roundedPattern_of_overflow hf]
    · exact narrowFields_exponent_roundedPattern hf clip hs (roundedElement_of_underflow hf hunder)

end Sys2Proof.Machine
end

section
/-! PROOFS. Presented operations and the outcome of a run (70_reset_and_hazards.md R112, R118, 60_exceptions.md R104).  `F` of a
presented operation decides what its step answers, and so whether a run goes on after it. -/

namespace Sys2Proof.Machine

variable {s : State} {p : Presentation} {ps : List Presentation} {v : Word} {r : Illegal}

theorem step_drive_of_coreFunction_ok (h : coreFunction p.cmd p.src p.rng = .ok v) (s : State) :
    step (p.drive s) = .next ((p.drive s).setDst v) :=
  step_next_iff_coreFunction.2 ⟨v, h, rfl⟩

theorem step_of_coreFunction_error (h : coreFunction s.cmd s.src s.rng = .error r) : step s = .refused (refusalOf r) := by
  rw [stepIsTheCoreFunction s, h]

/-- Settles O17: the presented values stand on the ports whatever the state before, and the step drives `dst` with `F` of
them. -/
theorem resultAtAnyTimeIsTheCoreFunction : Obligations.ResultAtAnyTimeIsTheCoreFunction := by
  intro s p v
  constructor
  · rintro ⟨t, hstep, rfl⟩
    obtain ⟨v, hv, rfl⟩ := step_next_iff_coreFunction.1 hstep
    exact hv
  · intro hv
    exact ⟨_, step_drive_of_coreFunction_ok hv s, State.setDst_dst ..⟩

/-- An operation with no `F` refuses the run, whatever comes after it. -/
theorem walk_cons_of_coreFunction_error (h : coreFunction p.cmd p.src p.rng = .error r) (s : State)
    (ps : List Presentation) : walk s (p :: ps) = .refused (refusalOf r) := by
  rw [walk, step_of_coreFunction_error (s := p.drive s) h]

/-- An operation with a result leaves it to the rest of the run whether the run is refused. -/
theorem walk_cons_refused_iff_of_coreFunction_ok (h : coreFunction p.cmd p.src p.rng = .ok v) {r : Refusal} :
    walk s (p :: ps) = .refused r ↔ walk ((p.drive s).setDst v) ps = .refused r := by
  rw [walk, step_drive_of_coreFunction_ok h]
  cases hwalk : walk ((p.drive s).setDst v) ps <;> simp [hwalk]

/-- A run is refused exactly when one of its operations has no `F`; the state it starts from plays no part. -/
theorem exists_walk_refused_iff :
    (∃ r, walk s ps = .refused r) ↔ ∃ p ∈ ps, ∃ r, coreFunction p.cmd p.src p.rng = .error r := by
  induction ps generalizing s with
  | nil => simp [walk]
  | cons p ps ih =>
    rw [List.exists_mem_cons_iff]
    cases hp : coreFunction p.cmd p.src p.rng with
    | error r => exact iff_of_true ⟨_, walk_cons_of_coreFunction_error hp s ps⟩ (.inl ⟨r, rfl⟩)
    | ok v => simp only [walk_cons_refused_iff_of_coreFunction_ok hp, ih, reduceCtorEq, exists_false, false_or]

/-- Settles O18: both halves by induction on the run, the first with its results and the second with its refusal. -/
theorem runOutcomeIsTheListOfResults : Obligations.RunOutcomeIsTheListOfResults :=
  fun _ _ => ⟨fun _ => walk_next_iff, exists_walk_refused_iff⟩

end Sys2Proof.Machine
end
